-- ==== Sys2Proof/Word.lean ====
section
/-! DEFINITION. The word types of the spec's notation (00_scope.md section 5.1), the four values of the sequencing register
(R12) and the events that trigger operations (00_scope.md section 5.3, 30_encoding.md R50 to R54): the form in which
anything reaches the block, before it is decoded. -/

namespace Sys2Proof

/-- A byte: 8 bits, bit 7 the most significant. -/
abbrev Byte := BitVec 8

/-- A word: 16 bits, bit 15 the most significant, always read and written whole (R34). -/
abbrev Word := BitVec 16

/-- A register write in the REGWR format: `sel` in bits 17:16, `data` in bits 15:0 (R53). -/
abbrev RegWrWord := BitVec 18

/-- A whole frame in the FRAME4 format, bit 31 the first on the wire (R51). -/
abbrev FrameWord := BitVec 32

/-- The values of the sequencing register `state`, in the order of R12. -/
inductive RxState where
  | awaitingStart
  | awaitingX
  | awaitingY
  | awaitingEnd
  deriving DecidableEq, Repr

/-- What triggers an operation from outside (00_scope.md section 5.3). A BYTE, a FRAME4 and a REGWR carry bits to be decoded;
the EVENT format has no bits and carries its operands (R54). -/
inductive Event where
  /-- `RXBYTE(b)`: the serial hardware has assembled one byte (R90). -/
  | rxByte (b : Byte)
  /-- Four bytes delivered together as one FRAME4 word (R51; DESIGN CHOICE, entry 5). -/
  | frame4 (w : FrameWord)
  /-- A register write through the write port (R53). -/
  | regWr (w : RegWrWord)
  /-- The call `build(min, max, steps)` (R70). -/
  | build (min max steps : Word)
  /-- The call `initTimerPwm(periodTicks, initialDutyX, initialDutyY)` (R84). -/
  | initPwm (p dx dy : Word)
  /-- A PWM period boundary (R83). -/
  | pBound
  /-- `initSerialPeripheral()` and the global interrupt enable (R110). -/
  | rxEnable
  /-- The main idle loop (R111). -/
  | idle
  /-- Power-on or reset (R150). -/
  | reset
  deriving DecidableEq, Repr

end Sys2Proof
end

