-- ==== Sys2Proof/Config.lean ====
section
/-! DEFINITION. The implementation parameters of 00_scope.md section 4 with their constraints (R3 to R6). All six are OPEN: the
spec gives them no value, so the hardware's own configuration is made of opaque constants (entry 1). -/

namespace Sys2Proof

/-- A configuration of the block. The constraints of R3 and R4 are part of it, so that a configuration which violates one cannot
be built (R6). -/
structure Config where
  /-- `STEPS`, 1 to 65535 (R3). -/
  steps : Word
  /-- `SERVO_MIN` (R4). -/
  servoMin : Word
  /-- `SERVO_MAX` (R4). -/
  servoMax : Word
  /-- `PERIOD_TICKS` (R5). -/
  periodTicks : Word
  /-- `INIT_DUTY_X` (R5). -/
  initDutyX : Word
  /-- `INIT_DUTY_Y` (R5). -/
  initDutyY : Word
  /-- `STEPS >= 1` (R3). -/
  steps_pos : 0 < steps.toNat
  /-- `SERVO_MAX > SERVO_MIN` (R4). -/
  servo_lt : servoMin.toNat < servoMax.toNat
  deriving DecidableEq, Repr

/-- Building a configuration: `none` where a constraint of R3 or R4 is violated (R6). -/
def Config.of? (steps servoMin servoMax periodTicks initDutyX initDutyY : Word) : Option Config :=
  if h : 0 < steps.toNat ∧ servoMin.toNat < servoMax.toNat then
    some ⟨steps, servoMin, servoMax, periodTicks, initDutyX, initDutyY, h.1, h.2⟩
  else none

/-- The OPEN parameters of the hardware at hand; nothing is known of them. -/
opaque Config.openSteps : Word
opaque Config.openServoMin : Word
opaque Config.openServoMax : Word
opaque Config.openPeriodTicks : Word
opaque Config.openInitDutyX : Word
opaque Config.openInitDutyY : Word

/-- The configuration of the hardware at hand. R6: the six constants are one of this hardware only if they meet the constraints;
the second branch makes the definition total and is reached only by constants that are no configuration at all. -/
def Config.hardware : Config :=
  match Config.of? Config.openSteps Config.openServoMin Config.openServoMax Config.openPeriodTicks Config.openInitDutyX
      Config.openInitDutyY with
  | some c => c
  | none => ⟨1, 0, 1, Config.openPeriodTicks, Config.openInitDutyX, Config.openInitDutyY, by decide, by decide⟩

end Sys2Proof
end

