-- ==== Sys2Proof/Machine/Operands.lean ====
section
/-! DEFINITION. The operand forms (30_encoding.md E2, R57): the two marker constants (R1), zero extension, and the clamp every
received index passes through (R92). -/

namespace Sys2Proof.Machine

/-- `START_MARKER` (R1; the literal is unaudited, entry 21). -/
def startMarker : Byte := 0x02

/-- `END_MARKER` (R1; the literal is unaudited, entry 21). -/
def endMarker : Byte := 0x18

/-- `FRAME_LEN` (R2). -/
def frameLen : Nat := 4

/-- `zext_16` of a byte (00_scope.md section 5.1). -/
def zext16 (b : Byte) : Word := b.setWidth 16

/-- `clamp(v)` of R92: `STEPS - 1` where `zext_16(v) >= STEPS`, else `v`. The comparison is unsigned and 16 bits wide; `STEPS - 1`
fits a byte whenever the first branch is taken (D23, entry 20). -/
def clamp (c : Config) (v : Byte) : Byte :=
  if c.steps ≤ zext16 v then (c.steps - 1).setWidth 8 else v

/-- The table index a clamped byte register stands for: `zext_16(cmd[k])` as an entry number (R31). -/
def tableIndex (b : Byte) : Nat := (zext16 b).toNat

/-- The largest index a received byte can be clamped to, `min(STEPS - 1, 255)` (R92, R104). -/
def maxIndex (c : Config) : Nat := min (c.steps.toNat - 1) 255

end Sys2Proof.Machine
end

