-- ==== Sys2Proof/Syntax.lean ====
section
/-! DEFINITION. The seventeen operations of 30_encoding.md R50, one constructor each, with the operands R50 to R54 and R57 give
them. -/

namespace Sys2Proof

/-- The operations of the block (R50); the list is closed. A marker operation (`RX.START.HIT`, `RX.END.COMMIT`) has no operand: its
byte is fixed. -/
inductive Instr where
  /-- `BUILD(min, max, steps)` (R70). -/
  | build (min max steps : Word)
  /-- `SETPERIOD(v)` (R80). -/
  | setPeriod (v : Word)
  /-- `SETCHX(v)` (R81). -/
  | setChX (v : Word)
  /-- `SETCHY(v)` (R82). -/
  | setChY (v : Word)
  /-- `PBOUND` (R83). -/
  | pBound
  /-- `INITPWM(p, dx, dy)` (R84). -/
  | initPwm (p dx dy : Word)
  /-- `RX.OFF`, any byte (R91). -/
  | rxOff (b : Byte)
  /-- `RX.START.HIT`, the byte `0x02` (R93). -/
  | rxStartHit
  /-- `RX.START.MISS`, any byte but `0x02` (R94). -/
  | rxStartMiss (b : Byte)
  /-- `RX.X`, any byte (R95). -/
  | rxX (b : Byte)
  /-- `RX.Y`, any byte (R96). -/
  | rxY (b : Byte)
  /-- `RX.END.COMMIT`, the byte `0x18` (R97). -/
  | rxEndCommit
  /-- `RX.END.DISCARD`, any byte but `0x18` (R98). -/
  | rxEndDiscard (b : Byte)
  /-- `MOVE x, y`, the frame `0x02, x, y, 0x18` (R99). -/
  | move (x y : Byte)
  /-- `RXENABLE` (R110). -/
  | rxEnable
  /-- `IDLE` (R111). -/
  | idle
  /-- `RESET` (R150). -/
  | reset
  deriving DecidableEq, Repr

end Sys2Proof
end

