-- ==== Sys2Proof/WellFormed.lean ====
section
/-! DEFINITION. Which terms of Instr are operations of R50. Only the two "any other byte" operations restrict their operand
(R94, R98; the rows' `except` in the opcode table); every other operand may take every value of its width. -/

namespace Sys2Proof

/-- The operands an operation admits. `BUILD`'s input constraints are not an encoding matter: a call outside them is an operation
that is refused (R73). -/
def Instr.wf : Instr → Bool
  | .build _ _ _ => true
  | .setPeriod _ => true
  | .setChX _ => true
  | .setChY _ => true
  | .pBound => true
  | .initPwm _ _ _ => true
  | .rxOff _ => true
  | .rxStartHit => true
  | .rxStartMiss b => b != Machine.startMarker
  | .rxX _ => true
  | .rxY _ => true
  | .rxEndCommit => true
  | .rxEndDiscard b => b != Machine.endMarker
  | .move _ _ => true
  | .rxEnable => true
  | .idle => true
  | .reset => true

end Sys2Proof
end

