-- ==== Sys2Proof/Decode.lean ====
section
/-! DEFINITION. Decoding of events into operations and back (30_encoding.md R50 to R60). A byte has no opcode field: which
operation it selects depends on `rx_en` and `state` too (R52, R55), so decoding takes both. The encoder, the numbering of
spec/opcode_table.json and the byte lists of R59 and R60 follow. -/

namespace Sys2Proof

/-- Why an event is not one operation. -/
inductive DecodeError where
  /-- A REGWR with `sel = 3` (R53, R88). -/
  | reservedSelect
  /-- A FRAME4 word that is not a `MOVE` here: its bytes are decoded one by one (R60). -/
  | notAUnit
  deriving DecidableEq, Repr

/-- The 2-bit code of a value of `state` (R12; DESIGN CHOICE of the spec, D3, entry 8). -/
def RxState.code : RxState → BitVec 2
  | .awaitingStart => 0
  | .awaitingX => 1
  | .awaitingY => 2
  | .awaitingEnd => 3

/-- The value of `state` with a code; all four codes are used (R12). -/
def RxState.ofCode (c : BitVec 2) : RxState :=
  if c = 0 then .awaitingStart else if c = 1 then .awaitingX else if c = 2 then .awaitingY else .awaitingEnd

/-! ### BYTE -/

/-- R55, row by row, the first that applies: the operation a received byte selects. Total over bytes (R7). -/
def decodeByte (rxEn : Bool) (st : RxState) (b : Byte) : Instr :=
  if rxEn = false then .rxOff b
  else match st with
    | .awaitingStart => if b = Machine.startMarker then .rxStartHit else .rxStartMiss b
    | .awaitingX => .rxX b
    | .awaitingY => .rxY b
    | .awaitingEnd => if b = Machine.endMarker then .rxEndCommit else .rxEndDiscard b

/-- R32: the byte that the serial bits `s0 .. s7` of one exchange assemble to, the first to arrive the most significant. The
assembly is done by the serial hardware outside the block. -/
def byteOfSerial (s0 s1 s2 s3 s4 s5 s6 s7 : Bool) : Byte :=
  BitVec.ofBool s0 ++ BitVec.ofBool s1 ++ BitVec.ofBool s2 ++ BitVec.ofBool s3 ++ BitVec.ofBool s4 ++ BitVec.ofBool s5
    ++ BitVec.ofBool s6 ++ BitVec.ofBool s7

/-! ### FRAME4 -/

/-- `START`, bits 31:24, byte offset 0 (R51). -/
def frameStart (w : FrameWord) : Byte := w.extractLsb' 24 8

/-- `X`, bits 23:16, byte offset 1 (R51). -/
def frameX (w : FrameWord) : Byte := w.extractLsb' 16 8

/-- `Y`, bits 15:8, byte offset 2 (R51). -/
def frameY (w : FrameWord) : Byte := w.extractLsb' 8 8

/-- `END`, bits 7:0, byte offset 3 (R51). -/
def frameEnd (w : FrameWord) : Byte := w.extractLsb' 0 8

/-- The bytes of a frame in order of arrival (R33). -/
def frameBytes (w : FrameWord) : List Byte := [frameStart w, frameX w, frameY w, frameEnd w]

/-- The FRAME4 word of four bytes, the first in the high bits (R51; numbering D26, entry 23). -/
def frameWord (b0 b1 b2 b3 : Byte) : FrameWord := b0 ++ b1 ++ b2 ++ b3

/-- A FRAME4 word is a `MOVE` as a unit when its markers match and its first byte is delivered with `rx_en = 1` in
`AwaitingStart` (R51, R60, R99). -/
def decodeFrame (rxEn : Bool) (st : RxState) (w : FrameWord) : Except DecodeError Instr :=
  if rxEn = true ∧ st = .awaitingStart ∧ frameStart w = Machine.startMarker ∧ frameEnd w = Machine.endMarker then
    .ok (.move (frameX w) (frameY w))
  else .error .notAUnit

/-! ### REGWR -/

/-- `sel`, bits 17:16 (R53). -/
def regWrSel (w : RegWrWord) : BitVec 2 := w.extractLsb' 16 2

/-- `data`, bits 15:0 (R53). -/
def regWrData (w : RegWrWord) : Word := w.extractLsb' 0 16

/-- R53: `sel` 0 is `PERIOD`, 1 is `CHX`, 2 is `CHY`, 3 is reserved. -/
def decodeRegWr (w : RegWrWord) : Except DecodeError Instr :=
  if regWrSel w = 0 then .ok (.setPeriod (regWrData w))
  else if regWrSel w = 1 then .ok (.setChX (regWrData w))
  else if regWrSel w = 2 then .ok (.setChY (regWrData w))
  else .error .reservedSelect

/-- The REGWR word of a select code and a value (R53). -/
def regWrWord (sel : BitVec 2) (data : Word) : RegWrWord := sel ++ data

/-! ### All formats -/

/-- The operation an event selects with `rx_en` and `state` as given (R50 to R55). An EVENT is its own operation (R54). -/
def decode (rxEn : Bool) (st : RxState) : Event → Except DecodeError Instr
  | .rxByte b => .ok (decodeByte rxEn st b)
  | .frame4 w => decodeFrame rxEn st w
  | .regWr w => decodeRegWr w
  | .build min max steps => .ok (.build min max steps)
  | .initPwm p dx dy => .ok (.initPwm p dx dy)
  | .pBound => .ok .pBound
  | .rxEnable => .ok .rxEnable
  | .idle => .ok .idle
  | .reset => .ok .reset

/-- A FRAME4 at the head that is not a unit here stands for its four bytes, delivered one by one (R56, R60). -/
def unfoldFrame (rxEn : Bool) (st : RxState) : List Event → List Event
  | .frame4 w :: rest =>
    match decodeFrame rxEn st w with
    | .ok _ => .frame4 w :: rest
    | .error _ => (frameBytes w).map Event.rxByte ++ rest
  | es => es

/-! ### The encoder -/

/-- The event that carries an operation: its word in the BYTE, FRAME4 or REGWR format, or the EVENT itself (R50 to R54). -/
def encode : Instr → Event
  | .build min max steps => .build min max steps
  | .setPeriod v => .regWr (regWrWord 0 v)
  | .setChX v => .regWr (regWrWord 1 v)
  | .setChY v => .regWr (regWrWord 2 v)
  | .pBound => .pBound
  | .initPwm p dx dy => .initPwm p dx dy
  | .rxOff b => .rxByte b
  | .rxStartHit => .rxByte Machine.startMarker
  | .rxStartMiss b => .rxByte b
  | .rxX b => .rxByte b
  | .rxY b => .rxByte b
  | .rxEndCommit => .rxByte Machine.endMarker
  | .rxEndDiscard b => .rxByte b
  | .move x y => .frame4 (frameWord Machine.startMarker x y Machine.endMarker)
  | .rxEnable => .rxEnable
  | .idle => .idle
  | .reset => .reset

/-- R50, third column: the `rx_en` and `state` under which an operation can be selected. REGWR and EVENT operations depend on
neither. -/
def Instr.selectedIn (rxEn : Bool) (st : RxState) : Instr → Bool
  | .build _ _ _ => true
  | .setPeriod _ => true
  | .setChX _ => true
  | .setChY _ => true
  | .pBound => true
  | .initPwm _ _ _ => true
  | .rxOff _ => !rxEn
  | .rxStartHit => rxEn && st == .awaitingStart
  | .rxStartMiss _ => rxEn && st == .awaitingStart
  | .rxX _ => rxEn && st == .awaitingX
  | .rxY _ => rxEn && st == .awaitingY
  | .rxEndCommit => rxEn && st == .awaitingEnd
  | .rxEndDiscard _ => rxEn && st == .awaitingEnd
  | .move _ _ => rxEn && st == .awaitingStart
  | .rxEnable => true
  | .idle => true
  | .reset => true

/-- The seven operations of the BYTE format (R50). -/
def Instr.isRx : Instr → Bool
  | .rxOff _ => true
  | .rxStartHit => true
  | .rxStartMiss _ => true
  | .rxX _ => true
  | .rxY _ => true
  | .rxEndCommit => true
  | .rxEndDiscard _ => true
  | .build _ _ _ => false
  | .setPeriod _ => false
  | .setChX _ => false
  | .setChY _ => false
  | .pBound => false
  | .initPwm _ _ _ => false
  | .move _ _ => false
  | .rxEnable => false
  | .idle => false
  | .reset => false

/-! ### The numbering of spec/opcode_table.json -/

/-- The event of a word of `nbits` bits numbered as the opcode table numbers it: 8 bits a BYTE, 18 a REGWR (24 in whole bytes),
32 a FRAME4. An EVENT has no bits (R54). -/
def tableEvent (nbits w : Nat) : Option Event :=
  if nbits = 8 ∧ w < 2 ^ 8 then some (.rxByte (BitVec.ofNat 8 w))
  else if (nbits = 18 ∨ nbits = 24) ∧ w < 2 ^ 18 then some (.regWr (BitVec.ofNat 18 w))
  else if nbits = 32 ∧ w < 2 ^ 32 then some (.frame4 (BitVec.ofNat 32 w))
  else none

/-- The `rx_en` and `state` that a table word is read under, where its meaning depends on them (DESIGN CHOICE, entry 7): the
start marker and a frame in `AwaitingStart`, the end marker in `AwaitingEnd`, any other byte with the receiver off, which is
how the block stands after reset. A REGWR is read under any. -/
def tableContext : Event → Option (Bool × RxState)
  | .rxByte b =>
    if b = Machine.startMarker then some (true, .awaitingStart)
    else if b = Machine.endMarker then some (true, .awaitingEnd)
    else some (false, .awaitingStart)
  | .frame4 _ => some (true, .awaitingStart)
  | .regWr _ => none
  | .build _ _ _ => none
  | .initPwm _ _ _ => none
  | .pBound => none
  | .rxEnable => none
  | .idle => none
  | .reset => none

/-- The operation the decoder reads from a word numbered as spec/opcode_table.json numbers it, under `tableContext`. -/
def decodeTableWord (nbits w : Nat) : Option Instr :=
  match tableEvent nbits w with
  | none => none
  | some e =>
    match (match tableContext e with
      | some (en, st) => decode en st e
      | none => decode false .awaitingStart e) with
    | .ok i => some i
    | .error _ => none

/-! ### Byte lists (R59, R60; the spec's own notation, D19, entry 26) -/

/-- `MOVE x, y`. -/
def streamMove (x y : Byte) : List Byte := [Machine.startMarker, x, y, Machine.endMarker]

/-- `.byte b`. -/
def streamByte (b : Byte) : List Byte := [b]

/-- `JUNK b`, for `b != 0x02`. -/
def streamJunk (b : Byte) : List Byte := streamByte b

/-- `BADEND x, y, e`, for `e != 0x18`. -/
def streamBadEnd (x y e : Byte) : List Byte := [Machine.startMarker, x, y, e]

/-- `PARTIAL1`. -/
def streamPartial1 : List Byte := [Machine.startMarker]

/-- `PARTIAL2 x`. -/
def streamPartial2 (x : Byte) : List Byte := [Machine.startMarker, x]

/-- `PARTIAL3 x, y`. -/
def streamPartial3 (x y : Byte) : List Byte := [Machine.startMarker, x, y]

end Sys2Proof
end

