-- ==== Sys2Proof/Machine/State.lean ====
section
/-! DEFINITION. The architectural state (10_state.md R11: the complete list), its reset values (R21), and the reasons a step can
stop. -/

namespace Sys2Proof.Machine

/-- A register that is either unwritten or holds a value. R20: a register nothing has written since the last `RESET` "holds no
value". That is a state of the register which operations test for (R74, R83, R110), and the value R21 gives it at reset
(entry 3). -/
inductive Reg (w : Nat) where
  | unwritten
  | written (v : BitVec w)
  deriving DecidableEq, Repr

/-- The byte registers `cmd[0..3]` (R13). -/
structure CmdBuf where
  c0 : Reg 8
  c1 : Reg 8
  c2 : Reg 8
  c3 : Reg 8
  deriving DecidableEq, Repr

/-- The lookup table's contents (R16): pairs of an entry number and its word, entry numbers strictly rising, an unlisted entry
unwritten (entry 6). The address unit is one entry (R31). -/
abbrev Memory := List (Nat × Word)

/-- The state of the block: every register of R11, and two fields of the model's own (`cfg`, `inputs`). -/
structure State where
  /-- The parameters, which no operation writes (00_scope.md section 4; entry 1). -/
  cfg : Config
  /-- `state`, the sequencing register (R12). -/
  state : RxState
  /-- `rx_en` (R18). -/
  rxEn : Bool
  /-- `cmd[0..3]` (R13). -/
  cmd : CmdBuf
  /-- `table[0..STEPS]` (R16). -/
  table : Memory
  /-- `PERIOD` (R17). -/
  period : Reg 16
  /-- `CHX` (R14). -/
  chX : Reg 16
  /-- `CHY` (R14). -/
  chY : Reg 16
  /-- `ACTX` (R15). -/
  actX : Reg 16
  /-- `ACTY` (R15). -/
  actY : Reg 16
  /-- The events still to come, in order of arrival (entry 2). -/
  inputs : List Event
  deriving DecidableEq, Repr

/-- The faults. The spec has none (R120, R125); this one is asked for by an access to an address that does not exist. -/
inductive Fault where
  /-- A table index above `STEPS` (R39). Raised by `RX.END.COMMIT` and `MOVE`; never in a state a run reaches (R104). Safe. -/
  | noSuchEntry
  deriving DecidableEq, Repr

/-- The refusals: the closed list of 00_scope.md section 5.2, and two of the model's own. -/
inductive Refusal where
  /-- `BUILD` outside its input constraints (R73). Safe. -/
  | badConfig
  /-- A second `BUILD` (R74). Safe. -/
  | buildTwice
  /-- `BUILD` while `rx_en = 1` (R74). Safe. -/
  | buildAfterEnable
  /-- `RXENABLE` before the table and the timer registers are all written (R110). Safe. -/
  | notInitialised
  /-- `SETPERIOD` or `INITPWM` while `rx_en = 1` (R80, R84). Safe. -/
  | periodAtRuntime
  /-- `SETCHX` or `SETCHY` while `rx_en = 1` (R86). Safe. -/
  | foreignWriteAtRuntime
  /-- A REGWR with `sel = 3`, by the step that decodes it (R88). Safe. -/
  | reservedSelect
  /-- `RX.END.COMMIT` or `MOVE` reading an unwritten register or table entry, which R20 refuses by this name (D20, U7); never in a state a
  run reaches (R105). Safe. -/
  | unwrittenRead
  /-- `PBOUND` before `PERIOD`, `CHX`, `CHY` are written (R83). Safe. -/
  | timerNotConfigured
  /-- An `RX.*` operation asked for where R55 does not select it, by `exec`; `step` never asks (entry 4). Safe. -/
  | notSelected
  /-- An instruction without a meaning in this model, by `exec`. Safe. -/
  | notModelled (mnemonic : String)
  deriving DecidableEq, Repr

/-- What an operation answers. -/
abbrev Result := Host.Outcome State Fault Refusal

/-- The state after reset with a given configuration (R21, R150). -/
def State.resetWith (c : Config) : State where
  cfg := c
  state := .awaitingStart
  rxEn := false
  cmd := ⟨.unwritten, .unwritten, .unwritten, .unwritten⟩
  table := []
  period := .unwritten
  chX := .unwritten
  chY := .unwritten
  actX := .unwritten
  actY := .unwritten
  inputs := []

/-- The block right after reset (R21), with the hardware's own configuration and no event pending. -/
def State.reset : State := State.resetWith Config.hardware

end Sys2Proof.Machine
end

