-- ==== Sys2Proof/Machine/Ops.lean ====
section
/-! DEFINITION. The named operations over registers and the lookup table that the meanings are made of. -/

namespace Sys2Proof.Machine

/-! ### Registers -/

/-- Whether something has written the register since the last `RESET` (R20). -/
def Reg.isWritten {w : Nat} : Reg w → Bool
  | .unwritten => false
  | .written _ => true

/-- Reading a register. R20 (spec/10_state.md): "An operation whose pseudocode reads an unwritten register is refused with
`UnwrittenRead`. The model must not pick zero or any other value for it." -/
def Reg.read {w : Nat} (r : Reg w) (k : BitVec w → Result) : Result :=
  match r with
  | .unwritten => .refused .unwrittenRead
  | .written v => k v

/-! One writer per field of State; each changes that field alone (R25). -/

/-- `state <- st`. -/
def State.putState (s : State) (st : RxState) : State := { s with state := st }

/-- `rx_en <- b`. -/
def State.putRxEn (s : State) (b : Bool) : State := { s with rxEn := b }

/-- `cmd[0] <- b`. -/
def State.putCmd0 (s : State) (b : Byte) : State := { s with cmd := { s.cmd with c0 := .written b } }

/-- `cmd[1] <- b`. -/
def State.putCmd1 (s : State) (b : Byte) : State := { s with cmd := { s.cmd with c1 := .written b } }

/-- `cmd[2] <- b`. -/
def State.putCmd2 (s : State) (b : Byte) : State := { s with cmd := { s.cmd with c2 := .written b } }

/-- `cmd[3] <- b`. -/
def State.putCmd3 (s : State) (b : Byte) : State := { s with cmd := { s.cmd with c3 := .written b } }

/-- The table becomes `m`. -/
def State.putTable (s : State) (m : Memory) : State := { s with table := m }

/-- `PERIOD <- v`. -/
def State.putPeriod (s : State) (v : Word) : State := { s with period := .written v }

/-- `CHX <- v`. -/
def State.putChX (s : State) (v : Word) : State := { s with chX := .written v }

/-- `CHY <- v`. -/
def State.putChY (s : State) (v : Word) : State := { s with chY := .written v }

/-- `ACTX <- v`. -/
def State.putActX (s : State) (v : Word) : State := { s with actX := .written v }

/-- `ACTY <- v`. -/
def State.putActY (s : State) (v : Word) : State := { s with actY := .written v }

/-- The events still to come become `es`. -/
def State.putInputs (s : State) (es : List Event) : State := { s with inputs := es }

/-! ### The lookup table (R31) -/

/-- The canonical form: entry numbers strictly rising. An unlisted entry is unwritten, so no entry equals what an unlisted one
reads as. -/
def Memory.wf (m : Memory) : Bool :=
  match m with
  | [] => true
  | [_] => true
  | p :: q :: rest => decide (p.1 < q.1) && Memory.wf (q :: rest)

/-- The register at an entry number. -/
def Memory.read (m : Memory) (i : Nat) : Reg 16 :=
  match m with
  | [] => .unwritten
  | (k, v) :: rest => if k = i then .written v else Memory.read rest i

/-- `MemWrite(i, 2, v)`: replaces the whole word of entry `i`. -/
def Memory.write (m : Memory) (i : Nat) (v : Word) : Memory :=
  match m with
  | [] => [(i, v)]
  | (k, u) :: rest =>
    if i < k then (i, v) :: (k, u) :: rest
    else if k = i then (i, v) :: rest
    else (k, u) :: Memory.write rest i v

/-- `MemRead(i, 2)` of the block's table: entries `0 .. STEPS` exist (R39), an unwritten one refuses (R20). -/
def tableRead (s : State) (i : Nat) (k : Word → Result) : Result :=
  if s.cfg.steps.toNat < i then .fault .noSuchEntry else (s.table.read i).read k

/-- The loop of R70 from entry `i` on, `n` entries to go: `acc` is the value of entry `i`, and each further one is `stepval` more.
Additions are exact; R72 says that none leaves 16 bits. -/
def Memory.fill (m : Memory) (i acc stepval : Nat) (n : Nat) : Memory :=
  match n with
  | 0 => m
  | n + 1 => Memory.fill (m.write i (BitVec.ofNat 16 acc)) (i + 1) (acc + stepval) stepval n

/-! ### Sequencing -/

/-- One operation after another, in one transition: a stop of the first is a stop of both. -/
def andThen (r : Result) (k : State → Result) : Result :=
  match r with
  | .next s => k s
  | .fault f => .fault f
  | .refused f => .refused f

/-- A byte operation happens only where R55 selects it for the byte received; anywhere else there is no such transition
(entry 4). -/
def whenSelected (i : Instr) (b : Byte) (s : State) (k : Result) : Result :=
  if decodeByte s.rxEn s.state b = i then k else .refused .notSelected

/-- The commit of R97, in one transition: `CHX <- table[y]`, `CHY <- table[x]`, crossed (C1, entry 21), for the X index `x` and the
Y index `y`. -/
def commitPair (s : State) (x y : Byte) : Result :=
  tableRead s (tableIndex y) fun vx =>
    tableRead s (tableIndex x) fun vy =>
      .next ((s.putChX vx).putChY vy)

end Sys2Proof.Machine
end

