-- ==== Sys2Proof/Machine/Flags.lean ====
section
/-! DEFINITION. The block has no status flags and no condition codes (R19). What stands in their place is what operations test before
they act: whether registers are written (R74, R83, R110). -/

namespace Sys2Proof.Machine

/-- `table[0]` is written: a `BUILD` has been done since the last `RESET` (R74). -/
def State.buildDone (s : State) : Bool := (s.table.read 0).isWritten

/-- `PERIOD`, `CHX` and `CHY` are written: the timer is configured and produces boundaries (R83, C8). -/
def State.timerConfigured (s : State) : Bool := s.period.isWritten && s.chX.isWritten && s.chY.isWritten

/-- Entries `0 .. n-1` are all written. -/
def Memory.writtenBelow (m : Memory) (n : Nat) : Bool :=
  match n with
  | 0 => true
  | n + 1 => (m.read n).isWritten && m.writtenBelow n

/-- All of `table[0 .. STEPS-1]`, `PERIOD`, `CHX`, `CHY`, `ACTX`, `ACTY` are written (R110). -/
def State.initialised (s : State) : Bool :=
  s.table.writtenBelow s.cfg.steps.toNat && s.period.isWritten && s.chX.isWritten && s.chY.isWritten
    && s.actX.isWritten && s.actY.isWritten

/-- The input constraints of `BUILD` in a block with configuration `c` (R70, R73). -/
def buildAdmitted (c : Config) (min max steps : Word) : Bool :=
  decide (min.toNat < max.toNat) && decide (0 < steps.toNat) && decide (steps = c.steps)

end Sys2Proof.Machine
end

