-- ==== Sys2Proof/Machine/PwmDriver.lean ====
section
/-! DEFINITION. The PWM compare-value driver (41_pwm_driver.md). It validates no value (R85). -/

namespace Sys2Proof.Machine

/-- `SETPERIOD(v)` (R80). -/
def execSetPeriod (v : Word) (s : State) : Result :=
  if s.rxEn = true then .refused .periodAtRuntime else .next (s.putPeriod v)

/-- `SETCHX(v)` (R81, R86). -/
def execSetChX (v : Word) (s : State) : Result :=
  if s.rxEn = true then .refused .foreignWriteAtRuntime else .next (s.putChX v)

/-- `SETCHY(v)` (R82, R86). -/
def execSetChY (v : Word) (s : State) : Result :=
  if s.rxEn = true then .refused .foreignWriteAtRuntime else .next (s.putChY v)

/-- `PBOUND` (R83): the written compare values take effect, both in one transition. -/
def execPBound (s : State) : Result :=
  if s.timerConfigured = false then .refused .timerNotConfigured
  else s.chX.read fun x => s.chY.read fun y => .next ((s.putActX x).putActY y)

/-- `INITPWM(p, dx, dy)` (R84): configures the timer and loads the compare and the active values. -/
def execInitPwm (p dx dy : Word) (s : State) : Result :=
  if s.rxEn = true then .refused .periodAtRuntime
  else .next (((((s.putPeriod p).putChX dx).putChY dy).putActX dx).putActY dy)

end Sys2Proof.Machine
end

