-- ==== Sys2Proof/Machine/Receiver.lean ====
section
/-! DEFINITION. The frame receiver (42_frame_receiver.md). Each `RX.*` operation is one transition on one received byte (R90, R36); it
happens where R55 selects it. -/

namespace Sys2Proof.Machine

/-- `RX.OFF` (R91): the byte is not remembered. -/
def execRxOff (b : Byte) (s : State) : Result :=
  whenSelected (.rxOff b) b s (.next s)

/-- `RX.START.HIT` (R93). -/
def execRxStartHit (s : State) : Result :=
  whenSelected .rxStartHit startMarker s (.next ((s.putCmd0 startMarker).putState .awaitingX))

/-- `RX.START.MISS` (R94, C6): the byte is stored and nothing else happens. -/
def execRxStartMiss (b : Byte) (s : State) : Result :=
  whenSelected (.rxStartMiss b) b s (.next ((s.putCmd0 b).putState .awaitingStart))

/-- `RX.X` (R95). -/
def execRxX (b : Byte) (s : State) : Result :=
  whenSelected (.rxX b) b s (.next ((s.putCmd1 (clamp s.cfg b)).putState .awaitingY))

/-- `RX.Y` (R96). -/
def execRxY (b : Byte) (s : State) : Result :=
  whenSelected (.rxY b) b s (.next ((s.putCmd2 (clamp s.cfg b)).putState .awaitingEnd))

/-- `RX.END.COMMIT` (R97). -/
def execRxEndCommit (s : State) : Result :=
  whenSelected .rxEndCommit endMarker s <|
    s.cmd.c2.read fun y => s.cmd.c1.read fun x =>
      commitPair ((s.putCmd3 endMarker).putState .awaitingStart) x y

/-- `RX.END.DISCARD` (R98). -/
def execRxEndDiscard (b : Byte) (s : State) : Result :=
  whenSelected (.rxEndDiscard b) b s (.next ((s.putCmd3 b).putState .awaitingStart))

/-- The event `RXBYTE(b)` (R90): the one operation R55 selects. -/
def rxByte (b : Byte) (s : State) : Result :=
  match decodeByte s.rxEn s.state b with
  | .rxOff v => execRxOff v s
  | .rxStartHit => execRxStartHit s
  | .rxStartMiss v => execRxStartMiss v s
  | .rxX v => execRxX v s
  | .rxY v => execRxY v s
  | .rxEndCommit => execRxEndCommit s
  | .rxEndDiscard v => execRxEndDiscard v s
  -- R55 selects none of the rest.
  | .build _ _ _ => .refused .notSelected
  | .setPeriod _ => .refused .notSelected
  | .setChX _ => .refused .notSelected
  | .setChY _ => .refused .notSelected
  | .pBound => .refused .notSelected
  | .initPwm _ _ _ => .refused .notSelected
  | .move _ _ => .refused .notSelected
  | .rxEnable => .refused .notSelected
  | .idle => .refused .notSelected
  | .reset => .refused .notSelected

/-- Bytes received one after another with nothing in between. -/
def rxBytes (bs : List Byte) (s : State) : Result :=
  match bs with
  | [] => .next s
  | b :: rest => andThen (rxByte b s) (rxBytes rest)

/-- `MOVE x, y` (R99): the four byte operations of its frame, in order. Where the first byte is not delivered in `AwaitingStart`
with `rx_en = 1` the bytes are decoded one by one all the same (R60; entry 5). -/
def execMove (x y : Byte) (s : State) : Result := rxBytes (streamMove x y) s

end Sys2Proof.Machine
end

