-- ==== Sys2Proof/Machine/System.lean ====
section
/-! DEFINITION. Initialisation, the idle loop and reset (43_init_and_idle.md, 70_reset_and_hazards.md section 1). -/

namespace Sys2Proof.Machine

/-- `RXENABLE` (R110). -/
def execRxEnable (s : State) : Result :=
  if s.initialised = false then .refused .notInitialised else .next (s.putRxEn true)

/-- `IDLE` (R111). -/
def execIdle (s : State) : Result := .next s

/-- `RESET` (R150): every register at its reset value. The parameters and the events still to come are no registers of the block
(entry 19). -/
def execReset (s : State) : Result := .next ((State.resetWith s.cfg).putInputs s.inputs)

/-- The initialisation trace of R112, after `RESET` and before any byte. -/
def bootTrace (c : Config) : List Event :=
  [.reset, .build c.servoMin c.servoMax c.steps, .initPwm c.periodTicks c.initDutyX c.initDutyY, .rxEnable, .idle]

end Sys2Proof.Machine
end

