-- ==== Sys2Proof/Machine/TableBuilder.lean ====
section
/-! DEFINITION. The duty-cycle lookup table builder (40_table_builder.md). -/

namespace Sys2Proof.Machine

/-- `stepval = (max - min) div steps`, unsigned and truncating (R70, R72 b). -/
def stepval (min max steps : Word) : Nat := (max.toNat - min.toNat) / steps.toNat

/-- The table after `BUILD`: entries `0 .. steps-1` by repeated addition of `stepval`, from `min + stepval` on; entry `steps` is not
written (R70, R76, R77). -/
def buildTable (m : Memory) (min max steps : Word) : Memory :=
  m.fill 0 (min.toNat + stepval min max steps) (stepval min max steps) steps.toNat

/-- `BUILD(min, max, steps)` (R70), with the refusals of R73 and R74 in the order of R70's pseudocode. -/
def execBuild (min max steps : Word) (s : State) : Result :=
  if buildAdmitted s.cfg min max steps = false then .refused .badConfig
  else if s.rxEn = true then .refused .buildAfterEnable
  else if s.buildDone = true then .refused .buildTwice
  else .next (s.putTable (buildTable s.table min max steps))

end Sys2Proof.Machine
end

