-- ==== Sys2Proof/Machine/Dispatch.lean ====
section
/-! DEFINITION. One arm per operation of R50. -/

namespace Sys2Proof.Machine

def exec (i : Instr) (s : State) : Host.Outcome State Fault Refusal :=
  match i with
  | .build min max steps => Sys2Proof.Machine.execBuild min max steps s
  | .setPeriod v => Sys2Proof.Machine.execSetPeriod v s
  | .setChX v => Sys2Proof.Machine.execSetChX v s
  | .setChY v => Sys2Proof.Machine.execSetChY v s
  | .pBound => Sys2Proof.Machine.execPBound s
  | .initPwm p dx dy => Sys2Proof.Machine.execInitPwm p dx dy s
  | .rxOff b => Sys2Proof.Machine.execRxOff b s
  | .rxStartHit => Sys2Proof.Machine.execRxStartHit s
  | .rxStartMiss b => Sys2Proof.Machine.execRxStartMiss b s
  | .rxX b => Sys2Proof.Machine.execRxX b s
  | .rxY b => Sys2Proof.Machine.execRxY b s
  | .rxEndCommit => Sys2Proof.Machine.execRxEndCommit s
  | .rxEndDiscard b => Sys2Proof.Machine.execRxEndDiscard b s
  | .move x y => Sys2Proof.Machine.execMove x y s
  | .rxEnable => Sys2Proof.Machine.execRxEnable s
  | .idle => Sys2Proof.Machine.execIdle s
  | .reset => Sys2Proof.Machine.execReset s

end Sys2Proof.Machine
end

