-- ==== Sys2Proof/Machine/Fetch.lean ====
section
/-! DEFINITION. Taking the next event and decoding it. The block fetches no instructions from a memory (R45): what comes next is the
event that arrives next (entry 2). -/

namespace Sys2Proof.Machine

/-- The refusal a decoding error stands for. A FRAME4 that is not a unit is unfolded before it is decoded and never gets here. -/
def refusalOf : DecodeError → Refusal
  | .reservedSelect => .reservedSelect
  | .notAUnit => .notSelected

/-- The next operation and the state that it runs in, with its event consumed (R38: an event is delivered once). With no event pending
the block is in the idle loop (R111, R130). -/
def fetch (s : State) : Except Refusal (Instr × State) :=
  match unfoldFrame s.rxEn s.state s.inputs with
  | [] => .ok (.idle, s)
  | e :: rest =>
    match decode s.rxEn s.state e with
    | .ok i => .ok (i, s.putInputs rest)
    | .error r => .error (refusalOf r)

end Sys2Proof.Machine
end

