-- ==== Sys2Proof/Machine/Step.lean ====
section
/-! DEFINITION. One step: the next event's operation, one indivisible transition (R36). -/

namespace Sys2Proof.Machine

/-- One step of the block. -/
def step (s : State) : Host.Outcome State Fault Refusal :=
  match fetch s with
  | .ok (i, t) => exec i t
  | .error r => .refused r

/-- The word `w`, numbered as spec/opcode_table.json numbers it, delivered as the very next event, under the `rx_en` and `state` that
`tableContext` reads it under (entry 7). A word that is no word of the table's changes nothing. -/
def State.withFetchWord (s : State) (nbits w : Nat) : State :=
  match tableEvent nbits w with
  | none => s
  | some e =>
    match tableContext e with
    | none => s.putInputs (e :: s.inputs)
    | some (en, st) => ((s.putRxEn en).putState st).putInputs (e :: s.inputs)

end Sys2Proof.Machine
end

