-- ==== Sys2Proof/Safety.lean ====
section
/-! DEFINITION. The terms in which claims about runs are made: running, delivering events, the observable outputs (R9), the
invariant of every run from reset (R23), and the parse of a byte stream (R100). -/

namespace Sys2Proof.Machine

/-- `k` steps of the block. -/
def runFor (k : Nat) (s : State) : Result := Host.Core.run Sys2Proof.core k s

/-- The events `es` arrive before whatever is pending, and the block takes one step for each. -/
def deliver (es : List Event) (s : State) : Result := runFor es.length { s with inputs := es ++ s.inputs }

/-- The bytes `bs` are received one after another (a stream, 00_scope.md section 5.3). -/
def receive (bs : List Byte) (s : State) : Result := deliver (bs.map Event.rxByte) s

/-- The observable outputs of the block (R9). -/
structure Outputs where
  period : Reg 16
  chX : Reg 16
  chY : Reg 16
  actX : Reg 16
  actY : Reg 16
  state : RxState
  deriving DecidableEq, Repr

/-- What a claim about the block may observe of a state (R9, D29; entry 25). -/
def State.outputs (s : State) : Outputs := ⟨s.period, s.chX, s.chY, s.actX, s.actY, s.state⟩

/-- What holds in every state of a run from reset. R23 states it from `RXENABLE` on; the clauses about the time before make it
inductive. -/
structure Inv (s : State) : Prop where
  /-- The table's canonical form. -/
  tableOrdered : s.table.wf = true
  /-- Only entries `0 .. STEPS-1` are ever written; entry `STEPS` is unwritten (R23 e). -/
  tableBounded : ∀ p ∈ s.table, p.1 < s.cfg.steps.toNat
  /-- `BUILD` writes all of the entries or none (R70). -/
  tableWhole : s.table = [] ∨ s.table.writtenBelow s.cfg.steps.toNat = true
  /-- Before `RXENABLE` nothing has moved the receiver (R110). -/
  idleBeforeEnable : s.rxEn = false →
    s.state = .awaitingStart ∧ s.cmd = ⟨.unwritten, .unwritten, .unwritten, .unwritten⟩
  /-- R23 (a). -/
  initialisedAfterEnable : s.rxEn = true → s.initialised = true
  /-- R23 (d). -/
  markerHeld : s.state ≠ .awaitingStart → s.cmd.c0 = .written startMarker
  /-- R23 (b). -/
  indexXHeld : s.state = .awaitingY ∨ s.state = .awaitingEnd → ∃ x, s.cmd.c1 = .written x ∧ x.toNat ≤ maxIndex s.cfg
  /-- R23 (c). -/
  indexYHeld : s.state = .awaitingEnd → ∃ y, s.cmd.c2 = .written y ∧ y.toNat ≤ maxIndex s.cfg

/-- The next operation of `s` is the commit of one frame, `RX.END.COMMIT` or `MOVE`, and `x` and `y` are the indices of that very frame as
the receiver holds or will hold them: `cmd[1]` and `cmd[2]` (R97), or the clamped operands (R99). -/
def CommitsFrame (s : State) (x y : Byte) : Prop :=
  (∃ t, fetch s = .ok (.rxEndCommit, t) ∧ s.cmd.c1 = .written x ∧ s.cmd.c2 = .written y) ∨
  (∃ a b t, fetch s = .ok (.move a b, t) ∧ x = clamp s.cfg a ∧ y = clamp s.cfg b)

/-- The pair `(px, py)` is the crossed one, `(table[y], table[x])`, of one frame committed in the first `n` steps of the run from `s`, by
the table as it stands in `s`. -/
def PairOfOneFrame (s : State) (n : Nat) (px py : Reg 16) : Prop :=
  ∃ k u x y, k < n ∧ runFor k s = .next u ∧ CommitsFrame u x y ∧ x.toNat ≤ maxIndex s.cfg ∧ y.toNat ≤ maxIndex s.cfg ∧
    px = s.table.read y.toNat ∧ py = s.table.read x.toNat ∧ px ≠ .unwritten ∧ py ≠ .unwritten

/-- The parse of a stream that starts in `AwaitingStart` (R100): skip to the first start marker, take three bytes, keep the pair of
indices if the third is the end marker, and go on. It answers the index bytes of the last committed frame (`last` if there is
none) and the point at which the stream ends. -/
def parse (last : Option (Byte × Byte)) : List Byte → Option (Byte × Byte) × RxState
  | [] => (last, .awaitingStart)
  | b :: rest =>
    if b = startMarker then
      match rest with
      | [] => (last, .awaitingX)
      | [_] => (last, .awaitingY)
      | [_, _] => (last, .awaitingEnd)
      | x :: y :: e :: more => parse (if e = endMarker then some (x, y) else last) more
    else parse last rest

end Sys2Proof.Machine
end

