-- ==== Sys2Proof/Certificates/Slice0/Obligations.lean ====
section
/-! DEFINITION. The statements for the provers. Each docstring names the rules of spec/ it formalises, and the log entry
(notes/assumptions/<n>.md, "entry n") of every choice it rests on that is not a rule: a rule the spec marks as its own decision (D<n>) or as derived is
cited as a section, not as a rule. -/

open Sys2Proof Sys2Proof.Machine

/-! ### Encoding -/

/-- R51 to R55: decoding the encoding of an operation gives it back, with every operand at every value, wherever the operation can
be selected. -/
def Obligations.DecodeOfEncode : Prop :=
  ∀ (rxEn : Bool) (st : RxState) (i : Instr), i.wf = true → i.selectedIn rxEn st = true →
    decode rxEn st (encode i) = .ok i

/-- R50, R55: an event decodes to no operation but the one it encodes, and only where that operation can be selected. -/
def Obligations.EncodeOfDecode : Prop :=
  ∀ (rxEn : Bool) (st : RxState) (e : Event) (i : Instr), decode rxEn st e = .ok i →
    encode i = e ∧ i.wf = true ∧ i.selectedIn rxEn st = true

/-- R55: the seven rows of the decode table. -/
def Obligations.ByteSelectsItsOperation : Prop :=
  ∀ b : Byte,
    (∀ st, decode false st (.rxByte b) = .ok (.rxOff b)) ∧
    (b = 0x02 → decode true .awaitingStart (.rxByte b) = .ok .rxStartHit) ∧
    (b ≠ 0x02 → decode true .awaitingStart (.rxByte b) = .ok (.rxStartMiss b)) ∧
    decode true .awaitingX (.rxByte b) = .ok (.rxX b) ∧
    decode true .awaitingY (.rxByte b) = .ok (.rxY b) ∧
    (b = 0x18 → decode true .awaitingEnd (.rxByte b) = .ok .rxEndCommit) ∧
    (b ≠ 0x18 → decode true .awaitingEnd (.rxByte b) = .ok (.rxEndDiscard b))

/-- R7: in every state exactly one `RX.*` operation applies to a byte, and no byte traps, halts or is illegal. -/
def Obligations.EveryByteHasExactlyOneOperation : Prop :=
  ∀ (s : State) (b : Byte),
    (∃ i : Instr, (i.isRx = true ∧ i.wf = true ∧ i.selectedIn s.rxEn s.state = true ∧ encode i = .rxByte b) ∧
      ∀ j : Instr, j.isRx = true ∧ j.wf = true ∧ j.selectedIn s.rxEn s.state = true ∧ encode j = .rxByte b → j = i) ∧
    (Inv s → ∀ rest, s.inputs = .rxByte b :: rest → ∃ t, step s = .next t)

/-- R51: a frame word is a `MOVE` exactly when it matches the pattern `0x02000018` under the mask `0xFF0000FF`, its X index is bits
23:16 and its Y index bits 15:8, and its four fields make up the word. The bit numbering is the spec's choice (D26, entry 23). -/
def Obligations.FrameWordMatchesItsPattern : Prop :=
  ∀ w : FrameWord,
    (w &&& 0xFF0000FF#32 = 0x02000018#32 →
      decode true .awaitingStart (.frame4 w) = .ok (.move (w.extractLsb' 16 8) (w.extractLsb' 8 8))) ∧
    (w &&& 0xFF0000FF#32 ≠ 0x02000018#32 → decode true .awaitingStart (.frame4 w) = .error .notAUnit) ∧
    w = w.extractLsb' 24 8 ++ w.extractLsb' 16 8 ++ w.extractLsb' 8 8 ++ w.extractLsb' 0 8

/-- R32: the first serial bit of an exchange is the most significant bit of the byte, the last the least significant. -/
def Obligations.SerialBitsArriveMostSignificantFirst : Prop :=
  ∀ s0 s1 s2 s3 s4 s5 s6 s7 : Bool,
    let b := byteOfSerial s0 s1 s2 s3 s4 s5 s6 s7
    b.getLsbD 7 = s0 ∧ b.getLsbD 6 = s1 ∧ b.getLsbD 5 = s2 ∧ b.getLsbD 4 = s3 ∧
    b.getLsbD 3 = s4 ∧ b.getLsbD 2 = s5 ∧ b.getLsbD 1 = s6 ∧ b.getLsbD 0 = s7

/-- Words written out from R51 to R55 (the REGWR words and frames of spec/95_test_vectors.md) decode to the operations they stand
for. The REGWR select codes are the spec's choice (D15, entry 16). -/
def Obligations.SampleWordsDecode : Prop :=
  decode false .awaitingStart (.regWr 0b000100111000100000#18) = .ok (.setPeriod 20000) ∧
  decode false .awaitingStart (.regWr 0b010000011100001000#18) = .ok (.setChX 1800) ∧
  decode false .awaitingStart (.regWr 0b100000010100010100#18) = .ok (.setChY 1300) ∧
  decode true .awaitingStart (.frame4 0b00000010000000110000011100011000#32) = .ok (.move 3 7) ∧
  decode true .awaitingStart (.rxByte 0b00000010#8) = .ok .rxStartHit ∧
  decode true .awaitingEnd (.rxByte 0b00011000#8) = .ok .rxEndCommit ∧
  decode true .awaitingX (.rxByte 0b11001000#8) = .ok (.rxX 200)

/-- R53, R88 (the spec's own format, D15, entry 16): a REGWR with `sel = 3` is refused by its name. -/
def Obligations.ReservedSelectIsRefused : Prop :=
  ∀ (s : State) (w : RegWrWord) (rest : List Event), w.extractLsb' 16 2 = 3#2 → s.inputs = .regWr w :: rest →
    step s = .refused .reservedSelect

/-- The step runs the operation that the next event decodes to, with that event consumed; with no event pending it idles (R111,
entry 2); a frame word that is not a unit runs as its four bytes (R60, entry 5); a register write with the reserved
select code is refused (R53, R88: the spec's own format, D15, entry 16). -/
def Obligations.StepRunsTheDecodedOperation : Prop :=
  ∀ s : State,
    (s.inputs = [] → step s = .next s) ∧
    ∀ (e : Event) (rest : List Event), s.inputs = e :: rest →
      (∀ i, decode s.rxEn s.state e = .ok i → step s = exec i { s with inputs := rest }) ∧
      (∀ w, e = .frame4 w → decode s.rxEn s.state e = .error .notAUnit →
        step s = step { s with inputs := (frameBytes w).map Event.rxByte ++ rest }) ∧
      (decode s.rxEn s.state e = .error .reservedSelect → step s = .refused .reservedSelect)

/-- The host's way in (entry 7): a word of the opcode table delivered as the next event runs as the operation it decodes to, in a
state that differs from the given one at most in `rx_en` and `state`. -/
def Obligations.FetchWordRunsItsOperation : Prop :=
  ∀ (s : State) (nbits w : Nat) (i : Instr), decodeTableWord nbits w = some i →
    ∃ (en : Bool) (st : RxState), i.selectedIn en st = true ∧
      step (s.withFetchWord nbits w) = exec i { s with rxEn := en, state := st }

/-- R90: each received byte performs exactly the one operation R55 selects for it, and the next byte is looked at only in the state
that operation leaves. -/
def Obligations.BytesAreProcessedOneByOneInOrder : Prop :=
  ∀ (s : State) (b : Byte) (bs : List Byte),
    receive (b :: bs) s = andThen (exec (decodeByte s.rxEn s.state b) s) (receive bs)

/-! ### Reset and configuration -/

/-- R21 (D20, D21; entries 3 and 19): the state after reset. -/
def Obligations.ResetStateValues : Prop :=
  State.reset.state = .awaitingStart ∧ State.reset.rxEn = false ∧
  State.reset.cmd.c0 = .unwritten ∧ State.reset.cmd.c1 = .unwritten ∧ State.reset.cmd.c2 = .unwritten ∧
  State.reset.cmd.c3 = .unwritten ∧ (∀ i, State.reset.table.read i = .unwritten) ∧ State.reset.period = .unwritten ∧
  State.reset.chX = .unwritten ∧ State.reset.chY = .unwritten ∧ State.reset.actX = .unwritten ∧
  State.reset.actY = .unwritten ∧ State.reset.inputs = []

/-- R150 (D21; entry 19): `RESET` at any point leaves the reset values; the parameters and the pending events are no registers. -/
def Obligations.ResetRewritesEveryRegister : Prop :=
  ∀ s : State, exec .reset s = .next
    { cfg := s.cfg, state := .awaitingStart, rxEn := false
      cmd := ⟨.unwritten, .unwritten, .unwritten, .unwritten⟩, table := []
      period := .unwritten, chX := .unwritten, chY := .unwritten, actX := .unwritten, actY := .unwritten
      inputs := s.inputs }

/-- R6 (D17; entry 18): a configuration is built, with the values given, exactly when R3's and R4's constraints hold. -/
def Obligations.ConfigurationIsBuiltWithinItsConstraints : Prop :=
  ∀ steps mn mx p dx dy : Word,
    (0 < steps.toNat → mn.toNat < mx.toNat → ∃ c, Config.of? steps mn mx p dx dy = some c ∧ c.steps = steps ∧
      c.servoMin = mn ∧ c.servoMax = mx ∧ c.periodTicks = p ∧ c.initDutyX = dx ∧ c.initDutyY = dy) ∧
    (¬(0 < steps.toNat ∧ mn.toNat < mx.toNat) → Config.of? steps mn mx p dx dy = none)

/-! ### The table builder -/

/-- R70, R71 (D6, D17, D18; entries 11 and 18): `BUILD` writes `min + (i+1) * stepval`, none above `max`, to the entries below
`steps`, changes no other entry and no other register. -/
def Obligations.BuildFillsTheTable : Prop :=
  ∀ (s : State) (min max steps : Word), min.toNat < max.toNat → steps = s.cfg.steps → s.rxEn = false →
    s.table.read 0 = .unwritten →
    ∃ m : Memory, exec (.build min max steps) s = .next { s with table := m } ∧
      (∀ i, i < steps.toNat → ∃ v : Word, m.read i = .written v ∧
        v.toNat = min.toNat + (i + 1) * ((max.toNat - min.toNat) / steps.toNat) ∧ v.toNat ≤ max.toNat) ∧
      (∀ i, steps.toNat ≤ i → m.read i = s.table.read i)

/-- R72, R75: neighbouring entries differ by `stepval`; the table rises strictly exactly when `max - min >= steps`; its first entry is
not below `min`; its last entry is `max` exactly when `steps` divides `max - min`. -/
def Obligations.BuiltTableRisesByItsStep : Prop :=
  ∀ (s t : State) (min max steps : Word), exec (.build min max steps) s = .next t →
    ∃ v : Nat → Nat, (∀ i, i < steps.toNat → ∃ w : Word, t.table.read i = .written w ∧ w.toNat = v i) ∧
      (∀ i, i + 1 < steps.toNat → v (i + 1) = v i + (max.toNat - min.toNat) / steps.toNat) ∧
      (2 ≤ steps.toNat → ((∀ i, i + 1 < steps.toNat → v i < v (i + 1)) ↔ steps.toNat ≤ max.toNat - min.toNat)) ∧
      min.toNat ≤ v 0 ∧
      (v (steps.toNat - 1) = max.toNat ↔ steps.toNat ∣ max.toNat - min.toNat)

/-- R73, R74 (D17, D18; entry 18): when `BUILD` is refused, by which reason, in the order of R70's pseudocode. -/
def Obligations.BuildRefusals : Prop :=
  ∀ (s : State) (min max steps : Word),
    (max.toNat ≤ min.toNat ∨ steps.toNat = 0 ∨ steps ≠ s.cfg.steps → exec (.build min max steps) s = .refused .badConfig) ∧
    (min.toNat < max.toNat → steps = s.cfg.steps → s.rxEn = true →
      exec (.build min max steps) s = .refused .buildAfterEnable) ∧
    (∀ v, min.toNat < max.toNat → steps = s.cfg.steps → s.rxEn = false → s.table.read 0 = .written v →
      exec (.build min max steps) s = .refused .buildTwice)

/-- R16, R45, R74 (D18; entry 18): whatever operation runs, the table keeps every entry unless the operation is `RESET`, or a `BUILD`
before `RXENABLE` that finds the table not yet built. -/
def Obligations.TableIsImmutableOnceBuilt : Prop :=
  ∀ (i : Instr) (s t : State), exec i s = .next t →
    t.table = s.table ∨ i = .reset ∨
      ((∃ min max steps, i = .build min max steps) ∧ s.rxEn = false ∧ s.table.read 0 = .unwritten)

/-! ### The PWM driver -/

/-- R80, R81, R82 (D8, D15, D16; entries 11, 16, 17): a register write before `RXENABLE` changes its register, to any 16-bit
value, and nothing else. -/
def Obligations.RegisterWritesBeforeEnable : Prop :=
  ∀ (s : State) (v : Word), s.rxEn = false →
    exec (.setPeriod v) s = .next { s with period := .written v } ∧
    exec (.setChX v) s = .next { s with chX := .written v } ∧
    exec (.setChY v) s = .next { s with chY := .written v }

/-- R80, R84, R86 (D16; entry 17): after `RXENABLE` the host's writes are refused, each by its reason. -/
def Obligations.RegisterWritesRefusedAfterEnable : Prop :=
  ∀ (s : State) (v p dx dy : Word), s.rxEn = true →
    exec (.setPeriod v) s = .refused .periodAtRuntime ∧
    exec (.setChX v) s = .refused .foreignWriteAtRuntime ∧
    exec (.setChY v) s = .refused .foreignWriteAtRuntime ∧
    exec (.initPwm p dx dy) s = .refused .periodAtRuntime

/-- R83 (D9; entry 12): a period boundary copies both compare values to the active pair and changes nothing else. -/
def Obligations.PeriodBoundaryCopiesThePair : Prop :=
  ∀ (s : State) (p x y : Word), s.period = .written p → s.chX = .written x → s.chY = .written y →
    exec .pBound s = .next { s with actX := .written x, actY := .written y }

/-- R83 (C8; entry 12): before `PERIOD`, `CHX` and `CHY` are written there is no boundary. -/
def Obligations.PeriodBoundaryNeedsATimer : Prop :=
  ∀ s : State, s.period = .unwritten ∨ s.chX = .unwritten ∨ s.chY = .unwritten →
    exec .pBound s = .refused .timerNotConfigured

/-- R84 (D10, D16; entries 12 and 17): `INITPWM` loads the period, the compare values and the active values. -/
def Obligations.InitPwmLoadsFiveRegisters : Prop :=
  ∀ (s : State) (p dx dy : Word), s.rxEn = false →
    exec (.initPwm p dx dy) s = .next { s with
      period := .written p, chX := .written dx, chY := .written dy, actX := .written dx, actY := .written dy }

/-- R81, R82, R160 (the active pair and what `PBOUND` does to it: D9, entry 12): a written compare value reaches the active register only
at the next boundary, and one overwritten before it never does: two `SETCHX` before `RXENABLE`, two `SETCHY`, and after it the commits of two
frames, by both channels (each commit one transition: D11, entry 13; crossed: C1, entry 21; `cmd[3]`: D4, entry 9). -/
def Obligations.LastWriteBeforeTheBoundaryTakesEffect : Prop :=
  ∀ (s : State) (p cx cy : Word), s.period = .written p → s.chX = .written cx → s.chY = .written cy →
    (s.rxEn = false → ∀ v w : Word,
      (∃ t, deliver [encode (.setChX v), encode (.setChX w)] s = .next t ∧ t.actX = s.actX ∧ t.actY = s.actY) ∧
      deliver [encode (.setChX v), encode (.setChX w), .pBound] s =
        .next { s with chX := .written w, actX := .written w, actY := .written cy } ∧
      (∃ t, deliver [encode (.setChY v), encode (.setChY w)] s = .next t ∧ t.actX = s.actX ∧ t.actY = s.actY) ∧
      deliver [encode (.setChY v), encode (.setChY w), .pBound] s =
        .next { s with chY := .written w, actX := .written cx, actY := .written w }) ∧
    (s.rxEn = true → s.state = .awaitingStart → ∀ (x y x' y' : Byte) (v w v' w' : Word),
      s.table.read (clamp s.cfg y).toNat = .written v → s.table.read (clamp s.cfg x).toNat = .written w →
      s.table.read (clamp s.cfg y').toNat = .written v' → s.table.read (clamp s.cfg x').toNat = .written w' →
      (∃ t, receive (streamMove x y) s = .next t ∧ t.chX = .written v ∧ t.chY = .written w ∧
        t.actX = s.actX ∧ t.actY = s.actY) ∧
      (∃ t, receive (streamMove x y ++ streamMove x' y') s = .next t ∧ t.actX = s.actX ∧ t.actY = s.actY) ∧
      deliver ((streamMove x y ++ streamMove x' y').map Event.rxByte ++ [.pBound]) s = .next { s with
        cmd := ⟨.written 0x02, .written (clamp s.cfg x'), .written (clamp s.cfg y'), .written 0x18⟩
        chX := .written v', chY := .written w', actX := .written v', actY := .written w' })

/-! ### The frame receiver -/

/-- R92 (D23; entry 20): the clamp, its bound, its idempotence, and that it is the identity when `STEPS >= 256`. -/
def Obligations.ClampLaws : Prop :=
  ∀ (c : Config) (v : Byte),
    (c.steps.toNat ≤ v.toNat → (clamp c v).toNat = c.steps.toNat - 1) ∧
    (v.toNat < c.steps.toNat → clamp c v = v) ∧
    (clamp c v).toNat ≤ min (c.steps.toNat - 1) 255 ∧
    clamp c (clamp c v) = clamp c v ∧
    (256 ≤ c.steps.toNat → clamp c v = v)

/-- R91 (D13; entry 14): a byte that arrives while the receiver is off changes nothing. -/
def Obligations.ByteWhileOffChangesNothing : Prop :=
  ∀ (s : State) (b : Byte), s.rxEn = false → exec (.rxOff b) s = .next s

/-- R93: the byte `0x02` where a start is awaited is `RX.START.HIT`: it is stored and a frame begins; nothing else changes. -/
def Obligations.StartMarkerBeginsAFrame : Prop :=
  ∀ s : State, s.rxEn = true → s.state = .awaitingStart →
    decode s.rxEn s.state (.rxByte 0x02) = .ok .rxStartHit ∧
    exec .rxStartHit s = .next { s with cmd := { s.cmd with c0 := .written 0x02 }, state := .awaitingX }

/-- R94: any other byte there is `RX.START.MISS`: it is stored in `cmd[0]` and the receiver stays where it is; nothing else
changes. -/
def Obligations.OtherByteKeepsAwaitingStart : Prop :=
  ∀ (s : State) (b : Byte), s.rxEn = true → s.state = .awaitingStart → b ≠ 0x02 →
    decode s.rxEn s.state (.rxByte b) = .ok (.rxStartMiss b) ∧
    exec (.rxStartMiss b) s = .next { s with cmd := { s.cmd with c0 := .written b } }

/-- R95, R96, with R92 written out (D23; entry 20): any byte is stored as an index, replaced by `STEPS - 1` if it is not below
`STEPS`, and the receiver moves on; nothing else changes. -/
def Obligations.IndexBytesAreStoredClamped : Prop :=
  ∀ (s : State) (b k : Byte), s.rxEn = true →
    k.toNat = (if b.toNat < s.cfg.steps.toNat then b.toNat else s.cfg.steps.toNat - 1) →
    (s.state = .awaitingX →
      exec (.rxX b) s = .next { s with cmd := { s.cmd with c1 := .written k }, state := .awaitingY }) ∧
    (s.state = .awaitingY →
      exec (.rxY b) s = .next { s with cmd := { s.cmd with c2 := .written k }, state := .awaitingEnd })

/-- R97 (C1, entry 21; the store to `cmd[3]` is D4, entry 9): the end marker commits, crossed: `CHX` gets the Y-indexed entry and
`CHY` the X-indexed one. Nothing else changes, `ACTX` and `ACTY` among it. -/
def Obligations.CommitWritesBothChannelsCrossed : Prop :=
  ∀ (s : State) (x y : Byte) (vx vy : Word), s.rxEn = true → s.state = .awaitingEnd →
    s.cmd.c1 = .written x → s.cmd.c2 = .written y → x.toNat ≤ s.cfg.steps.toNat → y.toNat ≤ s.cfg.steps.toNat →
    s.table.read y.toNat = .written vx → s.table.read x.toNat = .written vy →
    exec .rxEndCommit s = .next { s with
      cmd := { s.cmd with c3 := .written 0x18 }, chX := .written vx, chY := .written vy, state := .awaitingStart }

/-- R20 (D20, entry 3) and the model's own bound on indices (entry 6): a commit that meets an unwritten index register or an
unwritten table entry is refused, and one with an index above `STEPS` faults; the Y index is used first. No run reaches such a
state. -/
def Obligations.CommitStopsOnUnwrittenOperands : Prop :=
  ∀ s : State, s.rxEn = true → s.state = .awaitingEnd →
    (s.cmd.c2 = .unwritten → exec .rxEndCommit s = .refused .unwrittenRead) ∧
    (∀ y, s.cmd.c2 = .written y → s.cmd.c1 = .unwritten → exec .rxEndCommit s = .refused .unwrittenRead) ∧
    (∀ x y : Byte, s.cmd.c2 = .written y → s.cmd.c1 = .written x →
      (s.cfg.steps.toNat < y.toNat → exec .rxEndCommit s = .fault .noSuchEntry) ∧
      (y.toNat ≤ s.cfg.steps.toNat → s.table.read y.toNat = .unwritten →
        exec .rxEndCommit s = .refused .unwrittenRead) ∧
      (∀ v, y.toNat ≤ s.cfg.steps.toNat → s.table.read y.toNat = .written v →
        (s.cfg.steps.toNat < x.toNat → exec .rxEndCommit s = .fault .noSuchEntry) ∧
        (x.toNat ≤ s.cfg.steps.toNat → s.table.read x.toNat = .unwritten →
          exec .rxEndCommit s = .refused .unwrittenRead)))

/-- R98 (the store to `cmd[3]` is D4, entry 9): any other byte drops the frame: no channel changes and the receiver awaits a
start. -/
def Obligations.WrongEndByteDiscardsTheFrame : Prop :=
  ∀ (s : State) (b : Byte), s.rxEn = true → s.state = .awaitingEnd → b ≠ 0x18 →
    exec (.rxEndDiscard b) s = .next { s with cmd := { s.cmd with c3 := .written b }, state := .awaitingStart }

/-- R99 (`cmd[3]`: D4, entry 9): the net effect of a whole frame; nothing else changes. -/
def Obligations.MoveNetEffect : Prop :=
  ∀ (s : State) (x y : Byte) (vx vy : Word), s.rxEn = true → s.state = .awaitingStart →
    s.table.read (clamp s.cfg y).toNat = .written vx → s.table.read (clamp s.cfg x).toNat = .written vy →
    exec (.move x y) s = .next { s with
      cmd := ⟨.written 0x02, .written (clamp s.cfg x), .written (clamp s.cfg y), .written 0x18⟩
      chX := .written vx, chY := .written vy }

/-- R60, R99 (entry 5): in every state, `MOVE` as one operation does what its four bytes do one by one, stops included. -/
def Obligations.MoveRefinesToItsBytes : Prop :=
  ∀ (s : State) (x y : Byte), exec (.move x y) s = receive [0x02, x, y, 0x18] s

/-- The model's own choice (entry 4), beside R55: an `RX.*` operation asked for where R55 does not select it, or with a byte it does
not admit, is refused. -/
def Obligations.UnselectedByteOperationIsRefused : Prop :=
  ∀ (s : State) (i : Instr), i.isRx = true → i.wf = false ∨ i.selectedIn s.rxEn s.state = false →
    exec i s = .refused .notSelected

/-- R101: a start marker inside a frame is data, or a wrong end marker, and never a new start. -/
def Obligations.NoResynchronisationInsideAFrame : Prop :=
  ∀ (s : State) (rest : List Event), s.rxEn = true → s.inputs = .rxByte 0x02 :: rest →
    (s.state = .awaitingX → step s = exec (.rxX 0x02) { s with inputs := rest }) ∧
    (s.state = .awaitingY → step s = exec (.rxY 0x02) { s with inputs := rest }) ∧
    (s.state = .awaitingEnd → step s = exec (.rxEndDiscard 0x02) { s with inputs := rest })

/-- R60 (the spec's shorthand, D19; entries 9 and 26): what `JUNK`, `BADEND` and `PARTIAL1` to `PARTIAL3` do from `AwaitingStart`. -/
def Obligations.PseudoInstructionEffects : Prop :=
  ∀ (s : State) (x y e : Byte), s.rxEn = true → s.state = .awaitingStart →
    (e ≠ 0x02 → receive (streamJunk e) s = exec (.rxStartMiss e) s) ∧
    (e ≠ 0x18 → receive (streamBadEnd x y e) s = .next { s with
      cmd := ⟨.written 0x02, .written (clamp s.cfg x), .written (clamp s.cfg y), .written e⟩ }) ∧
    (∃ t, receive streamPartial1 s = .next t ∧ t.state = .awaitingX) ∧
    (∃ t, receive (streamPartial2 x) s = .next t ∧ t.state = .awaitingY) ∧
    (∃ t, receive (streamPartial3 x y) s = .next t ∧ t.state = .awaitingEnd)

/-- R100: what any stream does from `AwaitingStart`, by the parse of R100 alone. -/
def Obligations.StreamIsParsedFrameByFrame : Prop :=
  ∀ (s : State) (bs : List Byte), Inv s → s.rxEn = true → s.state = .awaitingStart →
    ∃ t, receive bs s = .next t ∧ t.state = (parse none bs).2 ∧
      (∀ x y, (parse none bs).1 = some (x, y) →
        t.chX = s.table.read (clamp s.cfg y).toNat ∧ t.chY = s.table.read (clamp s.cfg x).toNat) ∧
      ((parse none bs).1 = none → t.chX = s.chX ∧ t.chY = s.chY) ∧
      t.table = s.table ∧ t.period = s.period ∧ t.actX = s.actX ∧ t.actY = s.actY ∧ t.rxEn = true ∧
      t.cfg = s.cfg ∧ t.inputs = s.inputs

/-- R102: bytes before a start marker are skipped without a trace once another byte follows; alone they leave the last of them in
`cmd[0]` and nothing else. -/
def Obligations.GarbagePrefixIsTransparent : Prop :=
  ∀ (s : State) (g : List Byte), s.rxEn = true → s.state = .awaitingStart → (∀ b ∈ g, b ≠ 0x02) →
    (∀ b bs, receive (g ++ b :: bs) s = receive (b :: bs) s) ∧
    (∀ b, g.getLast? = some b → receive g s = .next { s with cmd := { s.cmd with c0 := .written b } })

/-- R156: three bytes that are no marker bring the receiver to `AwaitingStart` from any state, without a commit. -/
def Obligations.ThreeNeutralBytesRealign : Prop :=
  ∀ (s : State) (b0 b1 b2 : Byte), s.rxEn = true → (∀ b ∈ [b0, b1, b2], b ≠ 0x02 ∧ b ≠ 0x18) →
    ∃ t, receive [b0, b1, b2] s = .next t ∧ t.state = .awaitingStart ∧ t.chX = s.chX ∧ t.chY = s.chY

/-- R125: the end of a frame leaves `AwaitingStart`, and from any state at most three more bytes bring it there. -/
def Obligations.ReceiverReturnsWithinThreeBytes : Prop :=
  (∀ (s t : State), exec .rxEndCommit s = .next t → t.state = .awaitingStart) ∧
  (∀ (s t : State) (b : Byte), exec (.rxEndDiscard b) s = .next t → t.state = .awaitingStart) ∧
  (∀ (s : State) (b0 b1 b2 : Byte), Inv s →
    ∃ k t, k ≤ 3 ∧ receive ([b0, b1, b2].take k) s = .next t ∧ t.state = .awaitingStart)

/-- R12: the successor relation of `state` under the byte operations, the self-loop on a byte that is no start marker included; no
other operation but `RESET` and `MOVE`, which is four byte operations, sets it. -/
def Obligations.StateFollowsItsSuccessorRelation : Prop :=
  ∀ (i : Instr) (s t : State), exec i s = .next t → i ≠ .reset → (∀ x y, i ≠ .move x y) →
    t.state = s.state ∧ (i.isRx = false ∨ ∃ b, i = .rxOff b) ∨
    s.state = .awaitingStart ∧ t.state = .awaitingStart ∧ (∃ b, i = .rxStartMiss b) ∨
    s.state = .awaitingStart ∧ t.state = .awaitingX ∧ i = .rxStartHit ∨
    s.state = .awaitingX ∧ t.state = .awaitingY ∧ (∃ b, i = .rxX b) ∨
    s.state = .awaitingY ∧ t.state = .awaitingEnd ∧ (∃ b, i = .rxY b) ∨
    s.state = .awaitingEnd ∧ t.state = .awaitingStart ∧ (i = .rxEndCommit ∨ ∃ b, i = .rxEndDiscard b)

/-! ### Initialisation, idling, whole-machine rules -/

/-- R110 (D13, D14; entries 14 and 15): `RXENABLE` sets `rx_en` and nothing else once the table's entries below `STEPS` and the five
timer registers are written, and is refused before. -/
def Obligations.EnableNeedsAnInitialisedBlock : Prop :=
  ∀ s : State,
    ((∀ i, i < s.cfg.steps.toNat → s.table.read i ≠ .unwritten) → s.period ≠ .unwritten → s.chX ≠ .unwritten →
      s.chY ≠ .unwritten → s.actX ≠ .unwritten → s.actY ≠ .unwritten →
      exec .rxEnable s = .next { s with rxEn := true }) ∧
    ((∃ i, i < s.cfg.steps.toNat ∧ s.table.read i = .unwritten) ∨ s.period = .unwritten ∨ s.chX = .unwritten ∨
      s.chY = .unwritten ∨ s.actX = .unwritten ∨ s.actY = .unwritten →
      exec .rxEnable s = .refused .notInitialised)

/-- R111: `IDLE` changes nothing, and what arrives after it is served as at any other time. -/
def Obligations.IdleChangesNothing : Prop :=
  ∀ s : State, exec .idle s = .next s ∧ ∀ es, deliver (.idle :: es) s = deliver es s

/-- R112, R113 (the trace and its order: D14, entry 15): the initialisation trace completes from any state, leaves the state of R113, and does
so too with `BUILD` and `INITPWM` swapped. That `ACTX` and `ACTY` hold the initial duties before the first `PBOUND` is the spec's own choice
(D10, entry 12: unsafe for a timer whose first period uses other values), as is that `RESET`, which may come in any state, leaves `cmd` and entry
`STEPS` unwritten (D20, D21, D7; entries 3, 6 and 19). -/
def Obligations.BootLeavesTheInitialState : Prop :=
  ∀ s : State, ∃ m : Memory,
    deliver (bootTrace s.cfg) s = .next
      { cfg := s.cfg, state := .awaitingStart, rxEn := true
        cmd := ⟨.unwritten, .unwritten, .unwritten, .unwritten⟩, table := m
        period := .written s.cfg.periodTicks, chX := .written s.cfg.initDutyX, chY := .written s.cfg.initDutyY
        actX := .written s.cfg.initDutyX, actY := .written s.cfg.initDutyY, inputs := s.inputs } ∧
    (∀ i, i < s.cfg.steps.toNat → ∃ v : Word, m.read i = .written v ∧ v.toNat = s.cfg.servoMin.toNat +
      (i + 1) * ((s.cfg.servoMax.toNat - s.cfg.servoMin.toNat) / s.cfg.steps.toNat)) ∧
    (∀ i, s.cfg.steps.toNat ≤ i → m.read i = .unwritten) ∧
    deliver [.reset, .initPwm s.cfg.periodTicks s.cfg.initDutyX s.cfg.initDutyY,
      .build s.cfg.servoMin s.cfg.servoMax s.cfg.steps, .rxEnable, .idle] s = deliver (bootTrace s.cfg) s

/-- R25, with the writers R11's table names: an operation that completes leaves every register as it was but those its own rule
assigns; between events nothing changes. Memory is compared entry by entry. (`cmd[3]` under the end bytes: D4, entry 9. `MOVE` is its four
byte operations, R99. The parameters and the pending events are no registers; no operation writes them.) -/
def Obligations.OperationsWriteOnlyTheirRegisters : Prop :=
  (∀ (i : Instr) (s t : State), exec i s = .next t →
    t.cfg = s.cfg ∧ t.inputs = s.inputs ∧
    (i = .reset ∨
      (t.rxEn = s.rxEn ∨ i = .rxEnable) ∧
      (t.state = s.state ∨ i.isRx = true ∧ (∀ b, i ≠ .rxOff b) ∨ ∃ x y, i = .move x y) ∧
      (t.cmd.c0 = s.cmd.c0 ∨ i = .rxStartHit ∨ (∃ b, i = .rxStartMiss b) ∨ ∃ x y, i = .move x y) ∧
      (t.cmd.c1 = s.cmd.c1 ∨ (∃ b, i = .rxX b) ∨ ∃ x y, i = .move x y) ∧
      (t.cmd.c2 = s.cmd.c2 ∨ (∃ b, i = .rxY b) ∨ ∃ x y, i = .move x y) ∧
      (t.cmd.c3 = s.cmd.c3 ∨ i = .rxEndCommit ∨ (∃ b, i = .rxEndDiscard b) ∨ ∃ x y, i = .move x y) ∧
      (∀ a, t.table.read a = s.table.read a ∨ ∃ min max steps, i = .build min max steps ∧ a < steps.toNat) ∧
      (t.period = s.period ∨ (∃ v, i = .setPeriod v) ∨ ∃ p dx dy, i = .initPwm p dx dy) ∧
      (t.chX = s.chX ∨ (∃ v, i = .setChX v) ∨ i = .rxEndCommit ∨ (∃ x y, i = .move x y) ∨
        ∃ p dx dy, i = .initPwm p dx dy) ∧
      (t.chY = s.chY ∨ (∃ v, i = .setChY v) ∨ i = .rxEndCommit ∨ (∃ x y, i = .move x y) ∨
        ∃ p dx dy, i = .initPwm p dx dy) ∧
      (t.actX = s.actX ∨ i = .pBound ∨ ∃ p dx dy, i = .initPwm p dx dy) ∧
      (t.actY = s.actY ∨ i = .pBound ∨ ∃ p dx dy, i = .initPwm p dx dy))) ∧
  (∀ s : State, s.inputs = [] → step s = .next s)

/-- R103: `state` and `cmd` keep their values across any number of `PBOUND` and `IDLE`; only a received byte or `RESET` changes
them. -/
def Obligations.NoTimeoutOnAPartialFrame : Prop :=
  (∀ (s : State) (p x y : Word) (es : List Event), s.period = .written p → s.chX = .written x → s.chY = .written y →
    (∀ e ∈ es, e = .pBound ∨ e = .idle) →
    ∃ t, deliver es s = .next t ∧ t.state = s.state ∧ t.cmd = s.cmd) ∧
  (∀ (s t : State) (e : Event) (rest : List Event), s.inputs = e :: rest → step s = .next t →
    (∀ b, e ≠ .rxByte b) → (∀ w, e ≠ .frame4 w) → e ≠ .reset → t.state = s.state ∧ t.cmd = s.cmd)

/-- R18, R127 (D13; entry 14): `RXENABLE` alone sets `rx_en` and `RESET` alone clears it. -/
def Obligations.OnlyResetClearsTheEnable : Prop :=
  ∀ s t : State, step s = .next t →
    (s.rxEn = true → t.rxEn = false → ∃ rest, s.inputs = .reset :: rest) ∧
    (s.rxEn = false → t.rxEn = true → ∃ rest, s.inputs = .rxEnable :: rest)

/-- R99: `PBOUND` and `IDLE` may fall anywhere among the four bytes of a frame; its effect is that of `MOVE` on every register but the
active pair, and the compare registers change only at the fourth byte. -/
def Obligations.FrameSurvivesInterleavedBoundaries : Prop :=
  ∀ (s : State) (x y : Byte) (es : List Event), Inv s → s.rxEn = true → s.state = .awaitingStart →
    (∀ e ∈ es, e = .pBound ∨ e = .idle ∨ ∃ b, e = .rxByte b) →
    (es.filter (fun e => e != .pBound && e != .idle) = ([0x02, x, y, 0x18] : List Byte).map Event.rxByte →
      ∃ t u, deliver es s = .next t ∧ exec (.move x y) s = .next u ∧
        t = { u with actX := t.actX, actY := t.actY }) ∧
    (es.filter (fun e => e != .pBound && e != .idle) = ([0x02, x, y] : List Byte).map Event.rxByte →
      ∃ t, deliver es s = .next t ∧ t.state = .awaitingEnd ∧ t.chX = s.chX ∧ t.chY = s.chY)

/-! ### Invariants and safety -/

/-- The invariant of runs holds after reset, whatever the configuration. -/
def Obligations.InvariantHoldsAtReset : Prop := Inv State.reset ∧ ∀ c : Config, Inv (State.resetWith c)

/-- R23 (a) to (e) and the table's canonical form: every step keeps the invariant, from every state that meets it. -/
def Obligations.StepKeepsTheInvariant : Prop :=
  ∀ s t : State, Inv s → step s = .next t → Inv t

/-- R104, R105: from every state that meets the invariant, a byte stream of any length and content completes: no read of an unwritten
register, no index out of the table, no stop of any kind. -/
def Obligations.NoByteStreamStopsTheReceiver : Prop :=
  ∀ (s : State) (bs : List Byte), Inv s → ∃ t, receive bs s = .next t ∧ Inv t

/-- R120, R105, and the closed list of 00_scope.md section 5.2 (entries 4 and 6): from a state that meets the invariant a step never
faults; a refusal has one of eight reasons and is the answer to an event of the initialisation sequencer or the timer, never to
a received byte or frame. -/
def Obligations.StopsAreTheListedRefusals : Prop :=
  ∀ s : State, Inv s →
    (∀ f, step s ≠ .fault f) ∧
    (∀ r, step s = .refused r →
      r ∈ [Refusal.badConfig, .buildTwice, .buildAfterEnable, .notInitialised, .periodAtRuntime, .foreignWriteAtRuntime,
        .reservedSelect, .timerNotConfigured] ∧
      ∃ e rest, s.inputs = e :: rest ∧ (∀ b, e ≠ .rxByte b) ∧ ∀ w, e ≠ .frame4 w)

/-- R23 (f), R14: after `RXENABLE` and until `RESET`, the compare pair is the one held at the start, or `(table[y], table[x])` for the two
indices of one and the same frame that the run committed, indices a byte can be clamped to; and the table stands still. It rests on both
channels changing in one transition (D11, entry 13: unsafe for hardware that can be seen between two stores), on the crossing (C1, entry
21) and on the refusal of host writes after `RXENABLE` (D16, entry 17). -/
def Obligations.ComparePairComesFromOneFrame : Prop :=
  ∀ (s t : State) (n : Nat), Inv s → s.rxEn = true → .reset ∉ s.inputs → runFor n s = .next t →
    t.table = s.table ∧ ((t.chX = s.chX ∧ t.chY = s.chY) ∨ PairOfOneFrame s n t.chX t.chY)

/-- R42, R87: at every point of every run, before `RXENABLE` and after it, the active pair is the one in effect at the start, or the
compare pair as a whole as it stood in some single state of the run, an earlier one once the receiver is on; after `RXENABLE` and until
`RESET` it is the active or the compare pair of the start, or `(table[y], table[x])` of one committed frame. It is never the X of one pair
with the Y of another. It rests on every operation being one transition (D11, entry 13: unsafe for a timer that latches between two
stores), on `PBOUND` copying both registers at once (D9, entry 12), on `INITPWM` loading the active pair (D10, entry 12), on `RESET` making
both pairs unwritten (D21, entry 19) and on the refusal of host writes after `RXENABLE` (D16, entry 17). -/
def Obligations.ActivePairIsNeverMixed : Prop :=
  ∀ (s t : State) (n : Nat), runFor n s = .next t →
    ((t.actX = s.actX ∧ t.actY = s.actY) ∨
      ∃ k u, k ≤ n ∧ (s.rxEn = true → .reset ∉ s.inputs → k < n) ∧ runFor k s = .next u ∧ t.actX = u.chX ∧
        t.actY = u.chY) ∧
    (Inv s → s.rxEn = true → .reset ∉ s.inputs →
      (t.actX = s.actX ∧ t.actY = s.actY) ∨ (t.actX = s.chX ∧ t.actY = s.chY) ∨ PairOfOneFrame s n t.actX t.actY)
end

