-- ==== Sys2Proof/Laws/Decode.lean ====
section
/-! SUPPORT. The fields of the FRAME4 and REGWR words, and decoding in each context. -/

namespace Sys2Proof

/-! ### Fields -/

@[simp] theorem frameStart_frameWord (b0 b1 b2 b3 : Byte) : frameStart (frameWord b0 b1 b2 b3) = b0 := by
  apply BitVec.eq_of_getLsbD_eq
  intro i hi
  simp only [frameStart, frameWord, BitVec.getLsbD_extractLsb', BitVec.getLsbD_append]
  simp [hi, show ¬24 + i < 8 by omega, show ¬24 + i - 8 < 8 by omega, show ¬24 + i - 8 - 8 < 8 by omega,
    show 24 + i - 8 - 8 - 8 = i by omega]

@[simp] theorem frameX_frameWord (b0 b1 b2 b3 : Byte) : frameX (frameWord b0 b1 b2 b3) = b1 := by
  apply BitVec.eq_of_getLsbD_eq
  intro i hi
  simp only [frameX, frameWord, BitVec.getLsbD_extractLsb', BitVec.getLsbD_append]
  simp [hi, show ¬16 + i < 8 by omega, show ¬16 + i - 8 < 8 by omega,
    show 16 + i - 8 - 8 = i by omega]

@[simp] theorem frameY_frameWord (b0 b1 b2 b3 : Byte) : frameY (frameWord b0 b1 b2 b3) = b2 := by
  apply BitVec.eq_of_getLsbD_eq
  intro i hi
  simp only [frameY, frameWord, BitVec.getLsbD_extractLsb', BitVec.getLsbD_append]
  simp [hi, show ¬8 + i < 8 by omega, show 8 + i - 8 = i by omega]

@[simp] theorem frameEnd_frameWord (b0 b1 b2 b3 : Byte) : frameEnd (frameWord b0 b1 b2 b3) = b3 := by
  apply BitVec.eq_of_getLsbD_eq
  intro i hi
  simp only [frameEnd, frameWord, BitVec.getLsbD_extractLsb', BitVec.getLsbD_append]
  simp [hi]

/-- A frame word is the four bytes it holds. -/
theorem frameWord_fields (w : FrameWord) : frameWord (frameStart w) (frameX w) (frameY w) (frameEnd w) = w := by
  apply BitVec.eq_of_getLsbD_eq
  intro i hi
  simp only [frameStart, frameX, frameY, frameEnd, frameWord, BitVec.getLsbD_append, BitVec.getLsbD_extractLsb']
  by_cases h1 : i < 8
  · simp [h1]
  · by_cases h2 : i - 8 < 8
    · simp [h1, h2, show 8 + (i - 8) = i by omega]
    · by_cases h3 : i - 8 - 8 < 8
      · simp [h1, h2, h3, show 16 + (i - 8 - 8) = i by omega]
      · simp [h1, h2, h3, show 24 + (i - 8 - 8 - 8) = i by omega, show i - 8 - 8 - 8 < 8 by omega]

@[simp] theorem regWrSel_regWrWord (sel : BitVec 2) (data : Word) : regWrSel (regWrWord sel data) = sel := by
  apply BitVec.eq_of_getLsbD_eq
  intro i hi
  simp only [regWrSel, regWrWord, BitVec.getLsbD_extractLsb', BitVec.getLsbD_append]
  simp [hi]

@[simp] theorem regWrData_regWrWord (sel : BitVec 2) (data : Word) : regWrData (regWrWord sel data) = data := by
  apply BitVec.eq_of_getLsbD_eq
  intro i hi
  simp only [regWrData, regWrWord, BitVec.getLsbD_extractLsb', BitVec.getLsbD_append]
  simp [hi]

/-- A REGWR word is the two fields it holds. -/
theorem regWrWord_fields (w : RegWrWord) : regWrWord (regWrSel w) (regWrData w) = w := by
  apply BitVec.eq_of_getLsbD_eq
  intro i hi
  simp only [regWrSel, regWrData, regWrWord, BitVec.getLsbD_append, BitVec.getLsbD_extractLsb']
  by_cases h : i < 16
  · simp [h]
  · simp [h, show 16 + (i - 16) = i by omega, show i - 16 < 2 by omega]

/-! ### The state codes -/

theorem ofCode_code (st : RxState) : RxState.ofCode st.code = st := by
  cases st <;> rfl

theorem code_ofCode (c : BitVec 2) : (RxState.ofCode c).code = c := by
  revert c; decide

/-! ### R55, context by context -/

@[simp] theorem decodeByte_off (st : RxState) (b : Byte) : decodeByte false st b = .rxOff b := rfl
@[simp] theorem decodeByte_awaitingX (b : Byte) : decodeByte true .awaitingX b = .rxX b := rfl
@[simp] theorem decodeByte_awaitingY (b : Byte) : decodeByte true .awaitingY b = .rxY b := rfl

theorem decodeByte_awaitingStart (b : Byte) :
    decodeByte true .awaitingStart b = if b = Machine.startMarker then .rxStartHit else .rxStartMiss b := rfl

theorem decodeByte_awaitingEnd (b : Byte) :
    decodeByte true .awaitingEnd b = if b = Machine.endMarker then .rxEndCommit else .rxEndDiscard b := rfl

/-- R55 as a whole: the decode of a byte is a byte operation that its context selects, with that byte. -/
theorem decodeByte_sound (en : Bool) (st : RxState) (b : Byte) :
    (decodeByte en st b).isRx = true ∧ (decodeByte en st b).wf = true ∧ (decodeByte en st b).selectedIn en st = true ∧
      encode (decodeByte en st b) = .rxByte b := by
  cases en
  · exact ⟨rfl, rfl, rfl, rfl⟩
  · cases st
    · rw [decodeByte_awaitingStart]
      split
      · next h => subst h; exact ⟨rfl, rfl, rfl, rfl⟩
      · next h => exact ⟨rfl, by simpa [Instr.wf] using h, rfl, rfl⟩
    · exact ⟨rfl, rfl, rfl, rfl⟩
    · exact ⟨rfl, rfl, rfl, rfl⟩
    · rw [decodeByte_awaitingEnd]
      split
      · next h => subst h; exact ⟨rfl, rfl, rfl, rfl⟩
      · next h => exact ⟨rfl, by simpa [Instr.wf] using h, rfl, rfl⟩

/-- The byte operation a context selects for a byte is the one R55 gives. -/
theorem decodeByte_of_selected {en : Bool} {st : RxState} {b : Byte} {i : Instr} (hr : i.isRx = true) (hw : i.wf = true)
    (hs : i.selectedIn en st = true) (he : encode i = .rxByte b) : decodeByte en st b = i := by
  cases i <;> simp only [Instr.isRx, Bool.false_eq_true] at hr <;> cases en <;> cases st <;>
    simp [Instr.selectedIn] at hs <;> simp only [encode, Event.rxByte.injEq] at he <;> subst he <;>
    first
    | rfl
    | (simp [Instr.wf] at hw; simp [decodeByte, hw])

/-- A frame decodes as a unit only to the `MOVE` of its index bytes, in the context of R60. -/
theorem decodeFrame_ok {en : Bool} {st : RxState} {w : FrameWord} {i : Instr} (h : decodeFrame en st w = .ok i) :
    en = true ∧ st = .awaitingStart ∧ frameStart w = Machine.startMarker ∧ frameEnd w = Machine.endMarker ∧
      i = .move (frameX w) (frameY w) := by
  unfold decodeFrame at h
  split at h
  · next hc => cases h; exact ⟨hc.1, hc.2.1, hc.2.2.1, hc.2.2.2, rfl⟩
  · cases h

theorem decodeFrame_error {en : Bool} {st : RxState} {w : FrameWord} {r : DecodeError} (h : decodeFrame en st w = .error r) :
    r = .notAUnit := by
  unfold decodeFrame at h
  split at h <;> cases h
  rfl

/-- A register write decodes to the write its select code names, or its select code is the reserved one. -/
theorem decodeRegWr_cases (w : RegWrWord) :
    (regWrSel w = 0 ∧ decodeRegWr w = .ok (.setPeriod (regWrData w))) ∨
    (regWrSel w = 1 ∧ decodeRegWr w = .ok (.setChX (regWrData w))) ∨
    (regWrSel w = 2 ∧ decodeRegWr w = .ok (.setChY (regWrData w))) ∨
    (regWrSel w = 3 ∧ decodeRegWr w = .error .reservedSelect) := by
  have h : ∀ c : BitVec 2, c = 0 ∨ c = 1 ∨ c = 2 ∨ c = 3 := by decide
  unfold decodeRegWr
  rcases h (regWrSel w) with h | h | h | h <;> rw [h] <;> simp

end Sys2Proof
end

