-- ==== Sys2Proof/Laws/State.lean ====
section
/-! SUPPORT. What each writer of a field of State does to each field: one lemma per field per writer. -/

namespace Sys2Proof.Machine

variable (s : State)

@[simp] theorem putState_cfg (st : RxState) : (s.putState st).cfg = s.cfg := rfl
@[simp] theorem putState_state (st : RxState) : (s.putState st).state = st := rfl
@[simp] theorem putState_rxEn (st : RxState) : (s.putState st).rxEn = s.rxEn := rfl
@[simp] theorem putState_cmd (st : RxState) : (s.putState st).cmd = s.cmd := rfl
@[simp] theorem putState_table (st : RxState) : (s.putState st).table = s.table := rfl
@[simp] theorem putState_period (st : RxState) : (s.putState st).period = s.period := rfl
@[simp] theorem putState_chX (st : RxState) : (s.putState st).chX = s.chX := rfl
@[simp] theorem putState_chY (st : RxState) : (s.putState st).chY = s.chY := rfl
@[simp] theorem putState_actX (st : RxState) : (s.putState st).actX = s.actX := rfl
@[simp] theorem putState_actY (st : RxState) : (s.putState st).actY = s.actY := rfl
@[simp] theorem putState_inputs (st : RxState) : (s.putState st).inputs = s.inputs := rfl

@[simp] theorem putRxEn_cfg (b : Bool) : (s.putRxEn b).cfg = s.cfg := rfl
@[simp] theorem putRxEn_state (b : Bool) : (s.putRxEn b).state = s.state := rfl
@[simp] theorem putRxEn_rxEn (b : Bool) : (s.putRxEn b).rxEn = b := rfl
@[simp] theorem putRxEn_cmd (b : Bool) : (s.putRxEn b).cmd = s.cmd := rfl
@[simp] theorem putRxEn_table (b : Bool) : (s.putRxEn b).table = s.table := rfl
@[simp] theorem putRxEn_period (b : Bool) : (s.putRxEn b).period = s.period := rfl
@[simp] theorem putRxEn_chX (b : Bool) : (s.putRxEn b).chX = s.chX := rfl
@[simp] theorem putRxEn_chY (b : Bool) : (s.putRxEn b).chY = s.chY := rfl
@[simp] theorem putRxEn_actX (b : Bool) : (s.putRxEn b).actX = s.actX := rfl
@[simp] theorem putRxEn_actY (b : Bool) : (s.putRxEn b).actY = s.actY := rfl
@[simp] theorem putRxEn_inputs (b : Bool) : (s.putRxEn b).inputs = s.inputs := rfl

@[simp] theorem putCmd0_cfg (b : Byte) : (s.putCmd0 b).cfg = s.cfg := rfl
@[simp] theorem putCmd0_state (b : Byte) : (s.putCmd0 b).state = s.state := rfl
@[simp] theorem putCmd0_rxEn (b : Byte) : (s.putCmd0 b).rxEn = s.rxEn := rfl
@[simp] theorem putCmd0_cmd (b : Byte) : (s.putCmd0 b).cmd = { s.cmd with c0 := .written b } := rfl
@[simp] theorem putCmd0_table (b : Byte) : (s.putCmd0 b).table = s.table := rfl
@[simp] theorem putCmd0_period (b : Byte) : (s.putCmd0 b).period = s.period := rfl
@[simp] theorem putCmd0_chX (b : Byte) : (s.putCmd0 b).chX = s.chX := rfl
@[simp] theorem putCmd0_chY (b : Byte) : (s.putCmd0 b).chY = s.chY := rfl
@[simp] theorem putCmd0_actX (b : Byte) : (s.putCmd0 b).actX = s.actX := rfl
@[simp] theorem putCmd0_actY (b : Byte) : (s.putCmd0 b).actY = s.actY := rfl
@[simp] theorem putCmd0_inputs (b : Byte) : (s.putCmd0 b).inputs = s.inputs := rfl

@[simp] theorem putCmd1_cfg (b : Byte) : (s.putCmd1 b).cfg = s.cfg := rfl
@[simp] theorem putCmd1_state (b : Byte) : (s.putCmd1 b).state = s.state := rfl
@[simp] theorem putCmd1_rxEn (b : Byte) : (s.putCmd1 b).rxEn = s.rxEn := rfl
@[simp] theorem putCmd1_cmd (b : Byte) : (s.putCmd1 b).cmd = { s.cmd with c1 := .written b } := rfl
@[simp] theorem putCmd1_table (b : Byte) : (s.putCmd1 b).table = s.table := rfl
@[simp] theorem putCmd1_period (b : Byte) : (s.putCmd1 b).period = s.period := rfl
@[simp] theorem putCmd1_chX (b : Byte) : (s.putCmd1 b).chX = s.chX := rfl
@[simp] theorem putCmd1_chY (b : Byte) : (s.putCmd1 b).chY = s.chY := rfl
@[simp] theorem putCmd1_actX (b : Byte) : (s.putCmd1 b).actX = s.actX := rfl
@[simp] theorem putCmd1_actY (b : Byte) : (s.putCmd1 b).actY = s.actY := rfl
@[simp] theorem putCmd1_inputs (b : Byte) : (s.putCmd1 b).inputs = s.inputs := rfl

@[simp] theorem putCmd2_cfg (b : Byte) : (s.putCmd2 b).cfg = s.cfg := rfl
@[simp] theorem putCmd2_state (b : Byte) : (s.putCmd2 b).state = s.state := rfl
@[simp] theorem putCmd2_rxEn (b : Byte) : (s.putCmd2 b).rxEn = s.rxEn := rfl
@[simp] theorem putCmd2_cmd (b : Byte) : (s.putCmd2 b).cmd = { s.cmd with c2 := .written b } := rfl
@[simp] theorem putCmd2_table (b : Byte) : (s.putCmd2 b).table = s.table := rfl
@[simp] theorem putCmd2_period (b : Byte) : (s.putCmd2 b).period = s.period := rfl
@[simp] theorem putCmd2_chX (b : Byte) : (s.putCmd2 b).chX = s.chX := rfl
@[simp] theorem putCmd2_chY (b : Byte) : (s.putCmd2 b).chY = s.chY := rfl
@[simp] theorem putCmd2_actX (b : Byte) : (s.putCmd2 b).actX = s.actX := rfl
@[simp] theorem putCmd2_actY (b : Byte) : (s.putCmd2 b).actY = s.actY := rfl
@[simp] theorem putCmd2_inputs (b : Byte) : (s.putCmd2 b).inputs = s.inputs := rfl

@[simp] theorem putCmd3_cfg (b : Byte) : (s.putCmd3 b).cfg = s.cfg := rfl
@[simp] theorem putCmd3_state (b : Byte) : (s.putCmd3 b).state = s.state := rfl
@[simp] theorem putCmd3_rxEn (b : Byte) : (s.putCmd3 b).rxEn = s.rxEn := rfl
@[simp] theorem putCmd3_cmd (b : Byte) : (s.putCmd3 b).cmd = { s.cmd with c3 := .written b } := rfl
@[simp] theorem putCmd3_table (b : Byte) : (s.putCmd3 b).table = s.table := rfl
@[simp] theorem putCmd3_period (b : Byte) : (s.putCmd3 b).period = s.period := rfl
@[simp] theorem putCmd3_chX (b : Byte) : (s.putCmd3 b).chX = s.chX := rfl
@[simp] theorem putCmd3_chY (b : Byte) : (s.putCmd3 b).chY = s.chY := rfl
@[simp] theorem putCmd3_actX (b : Byte) : (s.putCmd3 b).actX = s.actX := rfl
@[simp] theorem putCmd3_actY (b : Byte) : (s.putCmd3 b).actY = s.actY := rfl
@[simp] theorem putCmd3_inputs (b : Byte) : (s.putCmd3 b).inputs = s.inputs := rfl

@[simp] theorem putTable_cfg (m : Memory) : (s.putTable m).cfg = s.cfg := rfl
@[simp] theorem putTable_state (m : Memory) : (s.putTable m).state = s.state := rfl
@[simp] theorem putTable_rxEn (m : Memory) : (s.putTable m).rxEn = s.rxEn := rfl
@[simp] theorem putTable_cmd (m : Memory) : (s.putTable m).cmd = s.cmd := rfl
@[simp] theorem putTable_table (m : Memory) : (s.putTable m).table = m := rfl
@[simp] theorem putTable_period (m : Memory) : (s.putTable m).period = s.period := rfl
@[simp] theorem putTable_chX (m : Memory) : (s.putTable m).chX = s.chX := rfl
@[simp] theorem putTable_chY (m : Memory) : (s.putTable m).chY = s.chY := rfl
@[simp] theorem putTable_actX (m : Memory) : (s.putTable m).actX = s.actX := rfl
@[simp] theorem putTable_actY (m : Memory) : (s.putTable m).actY = s.actY := rfl
@[simp] theorem putTable_inputs (m : Memory) : (s.putTable m).inputs = s.inputs := rfl

@[simp] theorem putPeriod_cfg (v : Word) : (s.putPeriod v).cfg = s.cfg := rfl
@[simp] theorem putPeriod_state (v : Word) : (s.putPeriod v).state = s.state := rfl
@[simp] theorem putPeriod_rxEn (v : Word) : (s.putPeriod v).rxEn = s.rxEn := rfl
@[simp] theorem putPeriod_cmd (v : Word) : (s.putPeriod v).cmd = s.cmd := rfl
@[simp] theorem putPeriod_table (v : Word) : (s.putPeriod v).table = s.table := rfl
@[simp] theorem putPeriod_period (v : Word) : (s.putPeriod v).period = .written v := rfl
@[simp] theorem putPeriod_chX (v : Word) : (s.putPeriod v).chX = s.chX := rfl
@[simp] theorem putPeriod_chY (v : Word) : (s.putPeriod v).chY = s.chY := rfl
@[simp] theorem putPeriod_actX (v : Word) : (s.putPeriod v).actX = s.actX := rfl
@[simp] theorem putPeriod_actY (v : Word) : (s.putPeriod v).actY = s.actY := rfl
@[simp] theorem putPeriod_inputs (v : Word) : (s.putPeriod v).inputs = s.inputs := rfl

@[simp] theorem putChX_cfg (v : Word) : (s.putChX v).cfg = s.cfg := rfl
@[simp] theorem putChX_state (v : Word) : (s.putChX v).state = s.state := rfl
@[simp] theorem putChX_rxEn (v : Word) : (s.putChX v).rxEn = s.rxEn := rfl
@[simp] theorem putChX_cmd (v : Word) : (s.putChX v).cmd = s.cmd := rfl
@[simp] theorem putChX_table (v : Word) : (s.putChX v).table = s.table := rfl
@[simp] theorem putChX_period (v : Word) : (s.putChX v).period = s.period := rfl
@[simp] theorem putChX_chX (v : Word) : (s.putChX v).chX = .written v := rfl
@[simp] theorem putChX_chY (v : Word) : (s.putChX v).chY = s.chY := rfl
@[simp] theorem putChX_actX (v : Word) : (s.putChX v).actX = s.actX := rfl
@[simp] theorem putChX_actY (v : Word) : (s.putChX v).actY = s.actY := rfl
@[simp] theorem putChX_inputs (v : Word) : (s.putChX v).inputs = s.inputs := rfl

@[simp] theorem putChY_cfg (v : Word) : (s.putChY v).cfg = s.cfg := rfl
@[simp] theorem putChY_state (v : Word) : (s.putChY v).state = s.state := rfl
@[simp] theorem putChY_rxEn (v : Word) : (s.putChY v).rxEn = s.rxEn := rfl
@[simp] theorem putChY_cmd (v : Word) : (s.putChY v).cmd = s.cmd := rfl
@[simp] theorem putChY_table (v : Word) : (s.putChY v).table = s.table := rfl
@[simp] theorem putChY_period (v : Word) : (s.putChY v).period = s.period := rfl
@[simp] theorem putChY_chX (v : Word) : (s.putChY v).chX = s.chX := rfl
@[simp] theorem putChY_chY (v : Word) : (s.putChY v).chY = .written v := rfl
@[simp] theorem putChY_actX (v : Word) : (s.putChY v).actX = s.actX := rfl
@[simp] theorem putChY_actY (v : Word) : (s.putChY v).actY = s.actY := rfl
@[simp] theorem putChY_inputs (v : Word) : (s.putChY v).inputs = s.inputs := rfl

@[simp] theorem putActX_cfg (v : Word) : (s.putActX v).cfg = s.cfg := rfl
@[simp] theorem putActX_state (v : Word) : (s.putActX v).state = s.state := rfl
@[simp] theorem putActX_rxEn (v : Word) : (s.putActX v).rxEn = s.rxEn := rfl
@[simp] theorem putActX_cmd (v : Word) : (s.putActX v).cmd = s.cmd := rfl
@[simp] theorem putActX_table (v : Word) : (s.putActX v).table = s.table := rfl
@[simp] theorem putActX_period (v : Word) : (s.putActX v).period = s.period := rfl
@[simp] theorem putActX_chX (v : Word) : (s.putActX v).chX = s.chX := rfl
@[simp] theorem putActX_chY (v : Word) : (s.putActX v).chY = s.chY := rfl
@[simp] theorem putActX_actX (v : Word) : (s.putActX v).actX = .written v := rfl
@[simp] theorem putActX_actY (v : Word) : (s.putActX v).actY = s.actY := rfl
@[simp] theorem putActX_inputs (v : Word) : (s.putActX v).inputs = s.inputs := rfl

@[simp] theorem putActY_cfg (v : Word) : (s.putActY v).cfg = s.cfg := rfl
@[simp] theorem putActY_state (v : Word) : (s.putActY v).state = s.state := rfl
@[simp] theorem putActY_rxEn (v : Word) : (s.putActY v).rxEn = s.rxEn := rfl
@[simp] theorem putActY_cmd (v : Word) : (s.putActY v).cmd = s.cmd := rfl
@[simp] theorem putActY_table (v : Word) : (s.putActY v).table = s.table := rfl
@[simp] theorem putActY_period (v : Word) : (s.putActY v).period = s.period := rfl
@[simp] theorem putActY_chX (v : Word) : (s.putActY v).chX = s.chX := rfl
@[simp] theorem putActY_chY (v : Word) : (s.putActY v).chY = s.chY := rfl
@[simp] theorem putActY_actX (v : Word) : (s.putActY v).actX = s.actX := rfl
@[simp] theorem putActY_actY (v : Word) : (s.putActY v).actY = .written v := rfl
@[simp] theorem putActY_inputs (v : Word) : (s.putActY v).inputs = s.inputs := rfl

@[simp] theorem putInputs_cfg (es : List Event) : (s.putInputs es).cfg = s.cfg := rfl
@[simp] theorem putInputs_state (es : List Event) : (s.putInputs es).state = s.state := rfl
@[simp] theorem putInputs_rxEn (es : List Event) : (s.putInputs es).rxEn = s.rxEn := rfl
@[simp] theorem putInputs_cmd (es : List Event) : (s.putInputs es).cmd = s.cmd := rfl
@[simp] theorem putInputs_table (es : List Event) : (s.putInputs es).table = s.table := rfl
@[simp] theorem putInputs_period (es : List Event) : (s.putInputs es).period = s.period := rfl
@[simp] theorem putInputs_chX (es : List Event) : (s.putInputs es).chX = s.chX := rfl
@[simp] theorem putInputs_chY (es : List Event) : (s.putInputs es).chY = s.chY := rfl
@[simp] theorem putInputs_actX (es : List Event) : (s.putInputs es).actX = s.actX := rfl
@[simp] theorem putInputs_actY (es : List Event) : (s.putInputs es).actY = s.actY := rfl
@[simp] theorem putInputs_inputs (es : List Event) : (s.putInputs es).inputs = es := rfl

/-! ### The writers of `inputs` and every other writer commute -/

theorem putInputs_putState (es : List Event) (st : RxState) : (s.putState st).putInputs es = (s.putInputs es).putState st := rfl
theorem putInputs_putRxEn (es : List Event) (b : Bool) : (s.putRxEn b).putInputs es = (s.putInputs es).putRxEn b := rfl
theorem putInputs_putCmd0 (es : List Event) (b : Byte) : (s.putCmd0 b).putInputs es = (s.putInputs es).putCmd0 b := rfl
theorem putInputs_putCmd1 (es : List Event) (b : Byte) : (s.putCmd1 b).putInputs es = (s.putInputs es).putCmd1 b := rfl
theorem putInputs_putCmd2 (es : List Event) (b : Byte) : (s.putCmd2 b).putInputs es = (s.putInputs es).putCmd2 b := rfl
theorem putInputs_putCmd3 (es : List Event) (b : Byte) : (s.putCmd3 b).putInputs es = (s.putInputs es).putCmd3 b := rfl
theorem putInputs_putTable (es : List Event) (m : Memory) : (s.putTable m).putInputs es = (s.putInputs es).putTable m := rfl
theorem putInputs_putPeriod (es : List Event) (v : Word) : (s.putPeriod v).putInputs es = (s.putInputs es).putPeriod v := rfl
theorem putInputs_putChX (es : List Event) (v : Word) : (s.putChX v).putInputs es = (s.putInputs es).putChX v := rfl
theorem putInputs_putChY (es : List Event) (v : Word) : (s.putChY v).putInputs es = (s.putInputs es).putChY v := rfl
theorem putInputs_putActX (es : List Event) (v : Word) : (s.putActX v).putInputs es = (s.putInputs es).putActX v := rfl
theorem putInputs_putActY (es : List Event) (v : Word) : (s.putActY v).putInputs es = (s.putInputs es).putActY v := rfl

@[simp] theorem putInputs_putInputs (es fs : List Event) : (s.putInputs es).putInputs fs = s.putInputs fs := rfl
@[simp] theorem putInputs_self : s.putInputs s.inputs = s := rfl

end Sys2Proof.Machine
end

