-- ==== Sys2Proof/Laws/Memory.lean ====
section
/-! SUPPORT. The lookup table: read after write, the canonical form, and what the builder's loop leaves (R71, R72). -/

namespace Sys2Proof.Machine

/-! ### Registers -/

@[simp] theorem isWritten_unwritten {w : Nat} : (Reg.unwritten : Reg w).isWritten = false := rfl
@[simp] theorem isWritten_written {w : Nat} (v : BitVec w) : (Reg.written v).isWritten = true := rfl
@[simp] theorem read_unwritten {w : Nat} (k : BitVec w → Result) : Reg.unwritten.read k = .refused .unwrittenRead := rfl
@[simp] theorem read_written {w : Nat} (v : BitVec w) (k : BitVec w → Result) : (Reg.written v).read k = k v := rfl

theorem isWritten_iff {w : Nat} {r : Reg w} : r.isWritten = true ↔ ∃ v, r = .written v := by
  cases r <;> simp

theorem isWritten_iff_ne {w : Nat} {r : Reg w} : r.isWritten = true ↔ r ≠ .unwritten := by
  cases r <;> simp

theorem isWritten_eq_false {w : Nat} {r : Reg w} : r.isWritten = false ↔ r = .unwritten := by
  cases r <;> simp

/-- Reading a register answers a next state only if the register is written. -/
theorem Reg.read_next {w : Nat} {r : Reg w} {k : BitVec w → Result} {t : State} (h : r.read k = .next t) :
    ∃ v, r = .written v ∧ k v = .next t := by
  cases r with
  | unwritten => simp at h
  | written v => exact ⟨v, rfl, h⟩

/-! ### Read after write -/

@[simp] theorem Memory.read_nil (i : Nat) : Memory.read [] i = .unwritten := rfl

theorem Memory.read_cons (k : Nat) (v : Word) (m : Memory) (i : Nat) :
    Memory.read ((k, v) :: m) i = if k = i then .written v else m.read i := rfl

@[simp] theorem Memory.read_write_same (m : Memory) (i : Nat) (v : Word) : (m.write i v).read i = .written v := by
  induction m with
  | nil => simp [Memory.write, Memory.read_cons]
  | cons p m ih =>
    obtain ⟨k, u⟩ := p
    simp only [Memory.write]
    split
    · simp [Memory.read_cons]
    · split
      · simp [Memory.read_cons]
      · rw [Memory.read_cons, if_neg ‹_›, ih]

theorem Memory.read_write_ne (m : Memory) {i j : Nat} (v : Word) (h : i ≠ j) : (m.write i v).read j = m.read j := by
  induction m with
  | nil => simp [Memory.write, Memory.read_cons, h]
  | cons p m ih =>
    obtain ⟨k, u⟩ := p
    simp only [Memory.write]
    split
    · simp [Memory.read_cons, h]
    · split
      · next hk => subst hk; simp [Memory.read_cons, h]
      · simp only [Memory.read_cons, ih]

/-! ### The canonical form -/

theorem Memory.wf_cons {k : Nat} {v : Word} {m : Memory} :
    Memory.wf ((k, v) :: m) = true ↔ (∀ p ∈ m.head?, k < p.1) ∧ m.wf = true := by
  cases m <;> simp [Memory.wf]

theorem Memory.wf_tail {p : Nat × Word} {m : Memory} (h : Memory.wf (p :: m) = true) : m.wf = true :=
  (Memory.wf_cons (k := p.1) (v := p.2).1 h).2

/-- The first entry of a written table is the one written or the one that was first. -/
theorem Memory.head_write (m : Memory) (i : Nat) (v : Word) :
    ∀ p ∈ (m.write i v).head?, p.1 = i ∨ p ∈ m.head? := by
  cases m with
  | nil => simp [Memory.write]
  | cons q m =>
    obtain ⟨k, u⟩ := q
    simp only [Memory.write]
    split
    · simp
    · split <;> simp

/-- A write keeps the canonical form. -/
theorem Memory.wf_write {m : Memory} (h : m.wf = true) (i : Nat) (v : Word) : (m.write i v).wf = true := by
  induction m with
  | nil => rfl
  | cons p m ih =>
    obtain ⟨k, u⟩ := p
    have hm := Memory.wf_cons.1 h
    simp only [Memory.write]
    split
    · next hik => exact Memory.wf_cons.2 ⟨by simpa using hik, h⟩
    · split
      · next hk => subst hk; exact Memory.wf_cons.2 hm
      · next hlt hne =>
        refine Memory.wf_cons.2 ⟨fun p hp => ?_, ih hm.2⟩
        rcases Memory.head_write m i v p hp with h1 | h1
        · omega
        · exact hm.1 p h1

/-- The entries of a written table are the one written and those it had. -/
theorem Memory.mem_write {m : Memory} {i : Nat} {v : Word} {p : Nat × Word} (h : p ∈ m.write i v) :
    p = (i, v) ∨ p ∈ m := by
  induction m with
  | nil => simpa [Memory.write] using h
  | cons q m ih =>
    obtain ⟨k, u⟩ := q
    simp only [Memory.write] at h
    split at h
    · simpa using h
    · split at h
      · rcases List.mem_cons.1 h with h | h
        · exact .inl h
        · exact .inr (List.mem_cons_of_mem _ h)
      · rcases List.mem_cons.1 h with h | h
        · exact .inr (by simp [h])
        · exact (ih h).imp_right (List.mem_cons_of_mem _)

/-- A listed entry reads as written. -/
theorem Memory.isWritten_of_mem {m : Memory} {p : Nat × Word} (h : p ∈ m) : (m.read p.1).isWritten = true := by
  induction m with
  | nil => simp at h
  | cons q m ih =>
    obtain ⟨k, u⟩ := q
    rw [Memory.read_cons]
    split
    · rfl
    · rcases List.mem_cons.1 h with h | h
      · exact absurd (congrArg Prod.fst h).symm ‹¬_›
      · exact ih h

/-- An entry that reads as written is listed. -/
theorem Memory.mem_of_read {m : Memory} {i : Nat} {v : Word} (h : m.read i = .written v) : (i, v) ∈ m := by
  induction m with
  | nil => simp at h
  | cons q m ih =>
    obtain ⟨k, u⟩ := q
    rw [Memory.read_cons] at h
    split at h
    · next hk => cases h; subst hk; simp
    · exact List.mem_cons_of_mem _ (ih h)

theorem Memory.writtenBelow_iff (m : Memory) (n : Nat) :
    m.writtenBelow n = true ↔ ∀ i, i < n → (m.read i).isWritten = true := by
  induction n with
  | zero => simp [Memory.writtenBelow]
  | succ n ih =>
    simp only [Memory.writtenBelow, Bool.and_eq_true, ih]
    constructor
    · rintro ⟨h1, h2⟩ i hi
      rcases Nat.lt_succ_iff_lt_or_eq.1 hi with h | rfl
      · exact h2 i h
      · exact h1
    · exact fun h => ⟨h n (Nat.lt_succ_self n), fun i hi => h i (Nat.lt_succ_of_lt hi)⟩

/-! ### The builder's loop (R70, R71) -/

/-- What the loop leaves in an entry: `acc + j * stepval` in the `j`-th one that it writes, the old register in every other. -/
theorem Memory.read_fill (m : Memory) (i acc d n a : Nat) :
    (m.fill i acc d n).read a =
      if i ≤ a ∧ a < i + n then .written (BitVec.ofNat 16 (acc + (a - i) * d)) else m.read a := by
  induction n generalizing m i acc with
  | zero => rw [if_neg (by omega)]; rfl
  | succ n ih =>
    rw [Memory.fill, ih]
    by_cases h1 : i + 1 ≤ a ∧ a < i + 1 + n
    · rw [if_pos h1, if_pos (by omega)]
      have : a - i = a - (i + 1) + 1 := by omega
      rw [this, Nat.add_mul, Nat.one_mul]
      congr 2
      omega
    · rw [if_neg h1]
      by_cases h2 : a = i
      · subst h2
        rw [if_pos (by omega), Memory.read_write_same]
        simp
      · rw [if_neg (by omega), Memory.read_write_ne _ _ (Ne.symm h2)]

theorem Memory.wf_fill {m : Memory} (h : m.wf = true) (i acc d n : Nat) : (m.fill i acc d n).wf = true := by
  induction n generalizing m i acc with
  | zero => exact h
  | succ n ih => exact ih (Memory.wf_write h _ _) _ _

/-- The loop lists no entry but those it writes and those that were there. -/
theorem Memory.mem_fill {m : Memory} {i acc d n : Nat} {p : Nat × Word} (h : p ∈ m.fill i acc d n) :
    p.1 < i + n ∨ p ∈ m := by
  induction n generalizing m i acc with
  | zero => exact .inr h
  | succ n ih =>
    rcases ih h with h | h
    · exact .inl (by omega)
    · rcases Memory.mem_write h with rfl | h
      · exact .inl (by simp)
      · exact .inr h

/-- `steps * stepval` does not exceed `max - min` (R72 b). -/
theorem mul_stepval_le (min max steps : Word) : steps.toNat * stepval min max steps ≤ max.toNat - min.toNat :=
  Nat.mul_div_le _ _

/-- No entry leaves `min .. max`, so none wraps (R72 c). -/
theorem entry_le_max {min max steps : Word} (h : min.toNat < max.toNat) {i : Nat} (hi : i < steps.toNat) :
    min.toNat + (i + 1) * stepval min max steps ≤ max.toNat := by
  have h1 := mul_stepval_le min max steps
  have h2 : (i + 1) * stepval min max steps ≤ steps.toNat * stepval min max steps := Nat.mul_le_mul_right _ hi
  omega

/-- The closed form of R71. -/
theorem read_buildTable (m : Memory) (min max steps : Word) (a : Nat) :
    (buildTable m min max steps).read a =
      if a < steps.toNat then .written (BitVec.ofNat 16 (min.toNat + (a + 1) * stepval min max steps)) else m.read a := by
  rw [buildTable, Memory.read_fill]
  simp only [Nat.zero_le, true_and, Nat.zero_add, Nat.sub_zero]
  congr 3
  rw [Nat.add_mul, Nat.one_mul]
  omega

/-- R71 with the entry as a number: nothing wraps. -/
theorem buildTable_entry (m : Memory) {min max steps : Word} (h : min.toNat < max.toNat) {a : Nat} (ha : a < steps.toNat) :
    ∃ v : Word, (buildTable m min max steps).read a = .written v ∧
      v.toNat = min.toNat + (a + 1) * stepval min max steps := by
  refine ⟨_, by rw [read_buildTable, if_pos ha], ?_⟩
  have := entry_le_max h ha
  have := max.isLt
  rw [BitVec.toNat_ofNat, Nat.mod_eq_of_lt (by omega)]

theorem wf_buildTable {m : Memory} (h : m.wf = true) (min max steps : Word) : (buildTable m min max steps).wf = true :=
  Memory.wf_fill h _ _ _ _

theorem mem_buildTable {m : Memory} {min max steps : Word} {p : Nat × Word} (h : p ∈ buildTable m min max steps) :
    p.1 < steps.toNat ∨ p ∈ m := by
  simpa using Memory.mem_fill h

/-- After `BUILD` every entry below `steps` is written (R105). -/
theorem writtenBelow_buildTable (m : Memory) (min max steps : Word) :
    (buildTable m min max steps).writtenBelow steps.toNat = true := by
  rw [Memory.writtenBelow_iff]
  intro i hi
  rw [read_buildTable, if_pos hi, isWritten_written]

end Sys2Proof.Machine
end

