-- ==== Sys2Proof/Laws/Operands.lean ====
section
/-! SUPPORT. The clamp as arithmetic (R92). -/

namespace Sys2Proof.Machine

theorem toNat_zext16 (b : Byte) : (zext16 b).toNat = b.toNat := by
  simp [zext16]
  have := b.isLt
  omega

@[simp] theorem tableIndex_eq (b : Byte) : tableIndex b = b.toNat := toNat_zext16 b

/-- R92 as arithmetic on numbers. -/
theorem toNat_clamp (c : Config) (v : Byte) :
    (clamp c v).toNat = if v.toNat < c.steps.toNat then v.toNat else c.steps.toNat - 1 := by
  have hp := c.steps_pos
  have hv := v.isLt
  simp only [clamp, BitVec.le_def, toNat_zext16]
  split
  · rw [if_neg (by omega), BitVec.toNat_setWidth, BitVec.toNat_sub_of_le (by simp [BitVec.le_def]; omega)]
    have : (1 : Word).toNat = 1 := rfl
    omega
  · rw [if_pos (by omega)]

theorem clamp_of_lt {c : Config} {v : Byte} (h : v.toNat < c.steps.toNat) : clamp c v = v :=
  BitVec.eq_of_toNat_eq (by rw [toNat_clamp, if_pos h])

/-- A clamped index is below `STEPS` (R104). -/
theorem clamp_lt (c : Config) (v : Byte) : (clamp c v).toNat < c.steps.toNat := by
  have hp := c.steps_pos
  rw [toNat_clamp]
  split <;> omega

theorem clamp_le_maxIndex (c : Config) (v : Byte) : (clamp c v).toNat ≤ maxIndex c := by
  have h1 := clamp_lt c v
  have h2 := (clamp c v).isLt
  unfold maxIndex
  omega

/-- An index a byte can be clamped to is below `STEPS`. -/
theorem lt_steps_of_le_maxIndex {c : Config} {n : Nat} (h : n ≤ maxIndex c) : n < c.steps.toNat := by
  have hp := c.steps_pos
  unfold maxIndex at h
  omega

@[simp] theorem startMarker_ne_endMarker : startMarker ≠ endMarker := by decide

end Sys2Proof.Machine
end

