-- ==== Sys2Proof/Laws/Ops.lean ====
section
/-! SUPPORT. What each shared operation can do, said once: if it answers a next state, then these cases hold. -/

namespace Sys2Proof.Machine

/-! ### Shared operations -/

@[simp] theorem andThen_next (s : State) (k : State → Result) : andThen (.next s) k = k s := rfl
@[simp] theorem andThen_fault (f : Fault) (k : State → Result) : andThen (.fault f) k = .fault f := rfl
@[simp] theorem andThen_refused (r : Refusal) (k : State → Result) : andThen (.refused r) k = .refused r := rfl

theorem andThen_eq_next {r : Result} {k : State → Result} {t : State} (h : andThen r k = .next t) :
    ∃ u, r = .next u ∧ k u = .next t := by
  cases r with
  | next u => exact ⟨u, rfl, h⟩
  | fault f => simp at h
  | refused f => simp at h

theorem andThen_assoc (r : Result) (k l : State → Result) :
    andThen (andThen r k) l = andThen r (fun s => andThen (k s) l) := by
  cases r <;> rfl

theorem whenSelected_of {i : Instr} {b : Byte} {s : State} {k : Result} (h : decodeByte s.rxEn s.state b = i) :
    whenSelected i b s k = k := if_pos h

theorem whenSelected_of_not {i : Instr} {b : Byte} {s : State} {k : Result} (h : decodeByte s.rxEn s.state b ≠ i) :
    whenSelected i b s k = .refused .notSelected := if_neg h

/-- A byte operation that completes was selected by R55. -/
theorem whenSelected_next {i : Instr} {b : Byte} {s t : State} {k : Result} (h : whenSelected i b s k = .next t) :
    decodeByte s.rxEn s.state b = i ∧ k = .next t := by
  unfold whenSelected at h
  split at h
  · exact ⟨‹_›, h⟩
  · cases h

theorem tableRead_of_written {s : State} {i : Nat} {v : Word} {k : Word → Result} (hi : i ≤ s.cfg.steps.toNat)
    (hv : s.table.read i = .written v) : tableRead s i k = k v := by
  rw [tableRead, if_neg (by omega), hv, read_written]

theorem tableRead_of_unwritten {s : State} {i : Nat} {k : Word → Result} (hi : i ≤ s.cfg.steps.toNat)
    (hv : s.table.read i = .unwritten) : tableRead s i k = .refused .unwrittenRead := by
  rw [tableRead, if_neg (by omega), hv, read_unwritten]

theorem tableRead_of_lt {s : State} {i : Nat} {k : Word → Result} (hi : s.cfg.steps.toNat < i) :
    tableRead s i k = .fault .noSuchEntry := if_pos hi

theorem tableRead_next {s t : State} {i : Nat} {k : Word → Result} (h : tableRead s i k = .next t) :
    ∃ v, i ≤ s.cfg.steps.toNat ∧ s.table.read i = .written v ∧ k v = .next t := by
  unfold tableRead at h
  split at h
  · cases h
  · obtain ⟨v, hv, hk⟩ := Reg.read_next h
    exact ⟨v, by omega, hv, hk⟩

/-- A commit that completes writes the two channels, crossed, from written entries (R97). -/
theorem commitPair_next {s t : State} {x y : Byte} (h : commitPair s x y = .next t) :
    ∃ vx vy, x.toNat ≤ s.cfg.steps.toNat ∧ y.toNat ≤ s.cfg.steps.toNat ∧ s.table.read y.toNat = .written vx ∧
      s.table.read x.toNat = .written vy ∧ t = (s.putChX vx).putChY vy := by
  obtain ⟨vx, hys, hx, h⟩ := tableRead_next h
  obtain ⟨vy, hxs, hy, h⟩ := tableRead_next h
  rw [tableIndex_eq] at hx hy hxs hys
  cases h
  exact ⟨vx, vy, hxs, hys, hx, hy, rfl⟩

theorem commitPair_of {s : State} {x y : Byte} {vx vy : Word} (hxs : x.toNat ≤ s.cfg.steps.toNat)
    (hys : y.toNat ≤ s.cfg.steps.toNat) (hx : s.table.read y.toNat = .written vx) (hy : s.table.read x.toNat = .written vy) :
    commitPair s x y = .next ((s.putChX vx).putChY vy) := by
  rw [commitPair, tableIndex_eq, tableIndex_eq, tableRead_of_written hys hx, tableRead_of_written hxs hy]

/-! ### When each operation completes, and with what -/

theorem execBuild_next {mn mx steps : Word} {s t : State} (h : execBuild mn mx steps s = .next t) :
    mn.toNat < mx.toNat ∧ steps = s.cfg.steps ∧ s.rxEn = false ∧ s.table.read 0 = .unwritten ∧
      t = s.putTable (buildTable s.table mn mx steps) := by
  unfold execBuild at h
  split at h
  · cases h
  · next ha =>
    split at h
    · cases h
    · next hr =>
      split at h
      · cases h
      · next hb =>
        simp only [buildAdmitted, Bool.not_eq_false, Bool.and_eq_true, decide_eq_true_eq] at ha
        simp only [State.buildDone, Bool.not_eq_true, isWritten_eq_false] at hb
        exact ⟨ha.1.1, ha.2, by simpa using hr, hb, by cases h; rfl⟩

theorem execBuild_of {mn mx steps : Word} {s : State} (hm : mn.toNat < mx.toNat) (hs : steps = s.cfg.steps)
    (hr : s.rxEn = false) (ht : s.table.read 0 = .unwritten) :
    execBuild mn mx steps s = .next (s.putTable (buildTable s.table mn mx steps)) := by
  have hp := s.cfg.steps_pos
  subst hs
  simp [execBuild, buildAdmitted, State.buildDone, hm, hr, ht, hp]

theorem execSetPeriod_next {v : Word} {s t : State} (h : execSetPeriod v s = .next t) :
    s.rxEn = false ∧ t = s.putPeriod v := by
  unfold execSetPeriod at h
  split at h
  · cases h
  · next hc => cases h; exact ⟨by simpa using hc, rfl⟩

theorem execSetChX_next {v : Word} {s t : State} (h : execSetChX v s = .next t) :
    s.rxEn = false ∧ t = s.putChX v := by
  unfold execSetChX at h
  split at h
  · cases h
  · next hc => cases h; exact ⟨by simpa using hc, rfl⟩

theorem execSetChY_next {v : Word} {s t : State} (h : execSetChY v s = .next t) :
    s.rxEn = false ∧ t = s.putChY v := by
  unfold execSetChY at h
  split at h
  · cases h
  · next hc => cases h; exact ⟨by simpa using hc, rfl⟩

theorem execInitPwm_next {p dx dy : Word} {s t : State} (h : execInitPwm p dx dy s = .next t) :
    s.rxEn = false ∧ t = ((((s.putPeriod p).putChX dx).putChY dy).putActX dx).putActY dy := by
  unfold execInitPwm at h
  split at h
  · cases h
  · next hc => cases h; exact ⟨by simpa using hc, rfl⟩

theorem execPBound_next {s t : State} (h : execPBound s = .next t) :
    ∃ p x y, s.period = .written p ∧ s.chX = .written x ∧ s.chY = .written y ∧ t = (s.putActX x).putActY y := by
  unfold execPBound at h
  split at h
  · cases h
  · next hc =>
    obtain ⟨x, hx, h⟩ := Reg.read_next h
    obtain ⟨y, hy, h⟩ := Reg.read_next h
    simp only [State.timerConfigured, Bool.not_eq_false, Bool.and_eq_true] at hc
    obtain ⟨p, hp⟩ := isWritten_iff.1 hc.1.1
    cases h
    exact ⟨p, x, y, hp, hx, hy, rfl⟩

theorem execPBound_of {s : State} {p x y : Word} (hp : s.period = .written p) (hx : s.chX = .written x)
    (hy : s.chY = .written y) : execPBound s = .next ((s.putActX x).putActY y) := by
  simp [execPBound, State.timerConfigured, hp, hx, hy]

theorem execRxOff_next {b : Byte} {s t : State} (h : execRxOff b s = .next t) :
    decodeByte s.rxEn s.state b = .rxOff b ∧ t = s := by
  obtain ⟨h1, h2⟩ := whenSelected_next h
  cases h2
  exact ⟨h1, rfl⟩

theorem execRxStartHit_next {s t : State} (h : execRxStartHit s = .next t) :
    decodeByte s.rxEn s.state startMarker = .rxStartHit ∧ t = (s.putCmd0 startMarker).putState .awaitingX := by
  obtain ⟨h1, h2⟩ := whenSelected_next h
  cases h2
  exact ⟨h1, rfl⟩

theorem execRxStartMiss_next {b : Byte} {s t : State} (h : execRxStartMiss b s = .next t) :
    decodeByte s.rxEn s.state b = .rxStartMiss b ∧ t = (s.putCmd0 b).putState .awaitingStart := by
  obtain ⟨h1, h2⟩ := whenSelected_next h
  cases h2
  exact ⟨h1, rfl⟩

theorem execRxX_next {b : Byte} {s t : State} (h : execRxX b s = .next t) :
    decodeByte s.rxEn s.state b = .rxX b ∧ t = (s.putCmd1 (clamp s.cfg b)).putState .awaitingY := by
  obtain ⟨h1, h2⟩ := whenSelected_next h
  cases h2
  exact ⟨h1, rfl⟩

theorem execRxY_next {b : Byte} {s t : State} (h : execRxY b s = .next t) :
    decodeByte s.rxEn s.state b = .rxY b ∧ t = (s.putCmd2 (clamp s.cfg b)).putState .awaitingEnd := by
  obtain ⟨h1, h2⟩ := whenSelected_next h
  cases h2
  exact ⟨h1, rfl⟩

theorem execRxEndDiscard_next {b : Byte} {s t : State} (h : execRxEndDiscard b s = .next t) :
    decodeByte s.rxEn s.state b = .rxEndDiscard b ∧ t = (s.putCmd3 b).putState .awaitingStart := by
  obtain ⟨h1, h2⟩ := whenSelected_next h
  cases h2
  exact ⟨h1, rfl⟩

theorem execRxEndCommit_next {s t : State} (h : execRxEndCommit s = .next t) :
    decodeByte s.rxEn s.state endMarker = .rxEndCommit ∧
      ∃ x y vx vy, s.cmd.c1 = .written x ∧ s.cmd.c2 = .written y ∧ x.toNat ≤ s.cfg.steps.toNat ∧
        y.toNat ≤ s.cfg.steps.toNat ∧ s.table.read y.toNat = .written vx ∧ s.table.read x.toNat = .written vy ∧
        t = ((((s.putCmd3 endMarker).putState .awaitingStart).putChX vx).putChY vy) := by
  obtain ⟨h1, h2⟩ := whenSelected_next h
  obtain ⟨y, hy, h2⟩ := Reg.read_next h2
  obtain ⟨x, hx, h2⟩ := Reg.read_next h2
  obtain ⟨vx, vy, h3, h4, h5, h6, h7⟩ := commitPair_next h2
  exact ⟨h1, x, y, vx, vy, hx, hy, h3, h4, h5, h6, h7⟩

theorem execRxEndCommit_of {s : State} {x y : Byte} {vx vy : Word}
    (hsel : decodeByte s.rxEn s.state endMarker = .rxEndCommit) (hx : s.cmd.c1 = .written x) (hy : s.cmd.c2 = .written y)
    (hxs : x.toNat ≤ s.cfg.steps.toNat) (hys : y.toNat ≤ s.cfg.steps.toNat)
    (hvx : s.table.read y.toNat = .written vx) (hvy : s.table.read x.toNat = .written vy) :
    execRxEndCommit s = .next ((((s.putCmd3 endMarker).putState .awaitingStart).putChX vx).putChY vy) := by
  rw [execRxEndCommit, whenSelected_of hsel, hy, read_written, hx, read_written]
  exact commitPair_of hxs hys hvx hvy

theorem execRxEnable_next {s t : State} (h : execRxEnable s = .next t) : s.initialised = true ∧ t = s.putRxEn true := by
  unfold execRxEnable at h
  split at h
  · cases h
  · next hc => cases h; exact ⟨by simpa using hc, rfl⟩

theorem execReset_next {s t : State} (h : execReset s = .next t) : t = (State.resetWith s.cfg).putInputs s.inputs := by
  cases h; rfl

/-! ### The byte event -/

/-- The event `RXBYTE(b)` is `exec` of the operation R55 selects (R90). -/
theorem rxByte_eq_exec (b : Byte) (s : State) : rxByte b s = exec (decodeByte s.rxEn s.state b) s := by
  have h := (decodeByte_sound s.rxEn s.state b).1
  unfold rxByte
  cases hd : decodeByte s.rxEn s.state b <;> rw [hd] at h <;> first | rfl | cases h

@[simp] theorem rxBytes_nil (s : State) : rxBytes [] s = .next s := rfl
theorem rxBytes_cons (b : Byte) (bs : List Byte) (s : State) :
    rxBytes (b :: bs) s = andThen (rxByte b s) (rxBytes bs) := rfl

/-- `MOVE` is its four bytes (R99). -/
theorem execMove_eq (x y : Byte) (s : State) :
    execMove x y s = andThen (rxByte startMarker s) fun s1 => andThen (rxByte x s1) fun s2 =>
      andThen (rxByte y s2) fun s3 => rxByte endMarker s3 := by
  have last : rxBytes [endMarker] = rxByte endMarker := by
    funext s3
    rw [rxBytes_cons]
    cases rxByte endMarker s3 <;> rfl
  simp only [execMove, streamMove, rxBytes_cons]
  congr 1; funext s1; rw [rxBytes_cons]
  congr 1; funext s2; rw [rxBytes_cons, last]

/-- What a byte does in each context of R55 (R91, R93 to R98). -/
theorem rxByte_off {s : State} (h : s.rxEn = false) (b : Byte) : rxByte b s = .next s := by
  have hd : decodeByte s.rxEn s.state b = .rxOff b := by rw [h]; rfl
  rw [rxByte_eq_exec, hd]
  exact whenSelected_of hd

theorem rxByte_start_hit {s : State} (h : s.rxEn = true) (hs : s.state = .awaitingStart) :
    rxByte startMarker s = .next ((s.putCmd0 startMarker).putState .awaitingX) := by
  have hd : decodeByte s.rxEn s.state startMarker = .rxStartHit := by rw [h, hs]; rfl
  rw [rxByte_eq_exec, hd]
  exact whenSelected_of hd

theorem rxByte_start_miss {s : State} (h : s.rxEn = true) (hs : s.state = .awaitingStart) {b : Byte} (hb : b ≠ startMarker) :
    rxByte b s = .next ((s.putCmd0 b).putState .awaitingStart) := by
  have hd : decodeByte s.rxEn s.state b = .rxStartMiss b := by rw [h, hs, decodeByte_awaitingStart, if_neg hb]
  rw [rxByte_eq_exec, hd]
  exact whenSelected_of hd

theorem rxByte_x {s : State} (h : s.rxEn = true) (hs : s.state = .awaitingX) (b : Byte) :
    rxByte b s = .next ((s.putCmd1 (clamp s.cfg b)).putState .awaitingY) := by
  have hd : decodeByte s.rxEn s.state b = .rxX b := by rw [h, hs]; rfl
  rw [rxByte_eq_exec, hd]
  exact whenSelected_of hd

theorem rxByte_y {s : State} (h : s.rxEn = true) (hs : s.state = .awaitingY) (b : Byte) :
    rxByte b s = .next ((s.putCmd2 (clamp s.cfg b)).putState .awaitingEnd) := by
  have hd : decodeByte s.rxEn s.state b = .rxY b := by rw [h, hs]; rfl
  rw [rxByte_eq_exec, hd]
  exact whenSelected_of hd

theorem rxByte_end_discard {s : State} (h : s.rxEn = true) (hs : s.state = .awaitingEnd) {b : Byte} (hb : b ≠ endMarker) :
    rxByte b s = .next ((s.putCmd3 b).putState .awaitingStart) := by
  have hd : decodeByte s.rxEn s.state b = .rxEndDiscard b := by rw [h, hs, decodeByte_awaitingEnd, if_neg hb]
  rw [rxByte_eq_exec, hd]
  exact whenSelected_of hd

theorem rxByte_end_commit {s : State} (h : s.rxEn = true) (hs : s.state = .awaitingEnd) :
    rxByte endMarker s = execRxEndCommit s := by
  have hd : decodeByte s.rxEn s.state endMarker = .rxEndCommit := by rw [h, hs]; rfl
  rw [rxByte_eq_exec, hd]
  rfl

/-! ### No operation looks at the pending events -/

/-- The answer with other events pending. -/
def Result.putInputs (r : Result) (es : List Event) : Result :=
  match r with
  | .next t => .next (t.putInputs es)
  | .fault f => .fault f
  | .refused f => .refused f

@[simp] theorem Result.putInputs_next (t : State) (es : List Event) : Result.putInputs (.next t) es = .next (t.putInputs es) := rfl
@[simp] theorem Result.putInputs_fault (f : Fault) (es : List Event) : Result.putInputs (.fault f) es = .fault f := rfl
@[simp] theorem Result.putInputs_refused (f : Refusal) (es : List Event) : Result.putInputs (.refused f) es = .refused f := rfl

theorem Result.putInputs_ite (c : Prop) [Decidable c] (a b : Result) (es : List Event) :
    Result.putInputs (if c then a else b) es = if c then Result.putInputs a es else Result.putInputs b es := by
  by_cases h : c <;> simp [h]

theorem whenSelected_putInputs (i : Instr) (b : Byte) (s : State) (k : Result) (es : List Event) :
    whenSelected i b (s.putInputs es) (Result.putInputs k es) = Result.putInputs (whenSelected i b s k) es := by
  simp only [whenSelected, Result.putInputs_ite]
  rfl

theorem Reg.read_putInputs {w : Nat} (r : Reg w) (k : BitVec w → Result) (es : List Event) :
    (r.read fun v => Result.putInputs (k v) es) = Result.putInputs (r.read k) es := by
  cases r <;> rfl

theorem tableRead_putInputs (s : State) (i : Nat) (k : Word → Result) (es : List Event) :
    (tableRead (s.putInputs es) i fun v => Result.putInputs (k v) es) = Result.putInputs (tableRead s i k) es := by
  simp only [tableRead, putInputs_cfg, putInputs_table, Result.putInputs_ite, Result.putInputs_fault, Reg.read_putInputs]

theorem commitPair_putInputs (s : State) (x y : Byte) (es : List Event) :
    commitPair (s.putInputs es) x y = Result.putInputs (commitPair s x y) es := by
  simp only [commitPair, ← tableRead_putInputs]
  rfl

theorem execRxEndCommit_putInputs (s : State) (es : List Event) :
    execRxEndCommit (s.putInputs es) = Result.putInputs (execRxEndCommit s) es := by
  simp only [execRxEndCommit, ← whenSelected_putInputs, ← Reg.read_putInputs, ← commitPair_putInputs]
  rfl

theorem rxByte_putInputs (b : Byte) (s : State) (es : List Event) :
    rxByte b (s.putInputs es) = Result.putInputs (rxByte b s) es := by
  unfold rxByte
  rw [putInputs_rxEn, putInputs_state]
  cases decodeByte s.rxEn s.state b with
  | rxEndCommit => exact execRxEndCommit_putInputs s es
  | rxOff v => exact whenSelected_putInputs _ _ _ (.next s) _
  | rxStartHit => exact whenSelected_putInputs _ _ _ (.next ((s.putCmd0 startMarker).putState .awaitingX)) _
  | rxStartMiss v => exact whenSelected_putInputs _ _ _ (.next ((s.putCmd0 v).putState .awaitingStart)) _
  | rxX v => exact whenSelected_putInputs _ _ _ (.next ((s.putCmd1 (clamp s.cfg v)).putState .awaitingY)) _
  | rxY v => exact whenSelected_putInputs _ _ _ (.next ((s.putCmd2 (clamp s.cfg v)).putState .awaitingEnd)) _
  | rxEndDiscard v => exact whenSelected_putInputs _ _ _ (.next ((s.putCmd3 v).putState .awaitingStart)) _
  | _ => rfl

theorem rxBytes_putInputs (bs : List Byte) (s : State) (es : List Event) :
    rxBytes bs (s.putInputs es) = Result.putInputs (rxBytes bs s) es := by
  induction bs generalizing s with
  | nil => rfl
  | cons b bs ih =>
    rw [rxBytes_cons, rxBytes_cons, rxByte_putInputs]
    cases rxByte b s with
    | next t => simp [ih]
    | fault f => rfl
    | refused r => rfl

/-- No operation looks at the pending events or changes them. -/
theorem exec_putInputs (i : Instr) (s : State) (es : List Event) :
    exec i (s.putInputs es) = Result.putInputs (exec i s) es := by
  cases i with
  | build mn mx steps => simp only [exec, execBuild, Result.putInputs_ite]; rfl
  | setPeriod v => simp only [exec, execSetPeriod, Result.putInputs_ite]; rfl
  | setChX v => simp only [exec, execSetChX, Result.putInputs_ite]; rfl
  | setChY v => simp only [exec, execSetChY, Result.putInputs_ite]; rfl
  | initPwm p dx dy => simp only [exec, execInitPwm, Result.putInputs_ite]; rfl
  | pBound => simp only [exec, execPBound, Result.putInputs_ite, ← Reg.read_putInputs]; rfl
  | rxOff v => exact whenSelected_putInputs _ _ _ (.next s) _
  | rxStartHit => exact whenSelected_putInputs _ _ _ (.next ((s.putCmd0 startMarker).putState .awaitingX)) _
  | rxStartMiss v => exact whenSelected_putInputs _ _ _ (.next ((s.putCmd0 v).putState .awaitingStart)) _
  | rxX v => exact whenSelected_putInputs _ _ _ (.next ((s.putCmd1 (clamp s.cfg v)).putState .awaitingY)) _
  | rxY v => exact whenSelected_putInputs _ _ _ (.next ((s.putCmd2 (clamp s.cfg v)).putState .awaitingEnd)) _
  | rxEndCommit => exact execRxEndCommit_putInputs s es
  | rxEndDiscard v => exact whenSelected_putInputs _ _ _ (.next ((s.putCmd3 v).putState .awaitingStart)) _
  | move x y => exact rxBytes_putInputs _ _ _
  | rxEnable => simp only [exec, execRxEnable, Result.putInputs_ite]; rfl
  | idle => rfl
  | reset => rfl

theorem exec_next_inputs {i : Instr} {s t : State} (h : exec i s = .next t) : t.inputs = s.inputs := by
  have h1 := exec_putInputs i s s.inputs
  rw [putInputs_self, h] at h1
  simp only [Result.putInputs_next, Host.Outcome.next.injEq] at h1
  rw [h1, putInputs_inputs]

end Sys2Proof.Machine
end

