-- ==== Sys2Proof/Laws/PerInstr.lean ====
section
/-! SUPPORT. The per-instruction family TableRow: the encoding of every operation fits its row of spec/opcode_table.json (width, match,
mask, except). -/

namespace Sys2Proof.Laws

/-- A row of spec/opcode_table.json: the width in bits, the match, the mask, and the words left out. -/
structure Row where
  width : Nat
  value : BitVec 32
  mask : BitVec 32
  except : List (BitVec 32)
  deriving DecidableEq, Repr

/-- The row of each operation, as the table has it. -/
def row : Instr → Row
  | .build _ _ _ => ⟨0, 0, 0, []⟩
  | .setPeriod _ => ⟨18, 0x00000, 0x30000, []⟩
  | .setChX _ => ⟨18, 0x10000, 0x30000, []⟩
  | .setChY _ => ⟨18, 0x20000, 0x30000, []⟩
  | .pBound => ⟨0, 0, 0, []⟩
  | .initPwm _ _ _ => ⟨0, 0, 0, []⟩
  | .rxOff _ => ⟨8, 0x00, 0x00, []⟩
  | .rxStartHit => ⟨8, 0x02, 0xFF, []⟩
  | .rxStartMiss _ => ⟨8, 0x00, 0x00, [0x02]⟩
  | .rxX _ => ⟨8, 0x00, 0x00, []⟩
  | .rxY _ => ⟨8, 0x00, 0x00, []⟩
  | .rxEndCommit => ⟨8, 0x18, 0xFF, []⟩
  | .rxEndDiscard _ => ⟨8, 0x00, 0x00, [0x18]⟩
  | .move _ _ => ⟨32, 0x02000018, 0xFF0000FF, []⟩
  | .rxEnable => ⟨0, 0, 0, []⟩
  | .idle => ⟨0, 0, 0, []⟩
  | .reset => ⟨0, 0, 0, []⟩

/-- The width of an event's format and its bits, zero-extended. An EVENT has none (R54). -/
def bitsOf : Event → Nat × BitVec 32
  | .rxByte b => (8, b.setWidth 32)
  | .frame4 w => (32, w)
  | .regWr w => (18, w.setWidth 32)
  | .build _ _ _ => (0, 0)
  | .initPwm _ _ _ => (0, 0)
  | .pBound => (0, 0)
  | .rxEnable => (0, 0)
  | .idle => (0, 0)
  | .reset => (0, 0)

/-- The encoding of a well-formed operation has its row's width, matches its row under the mask, and is none of the words the row leaves
out. -/
def TableRow.Statement (i : Instr) : Prop :=
  i.wf = true → (bitsOf (encode i)).1 = (row i).width ∧ (bitsOf (encode i)).2 &&& (row i).mask = (row i).value ∧
    (bitsOf (encode i)).2 ∉ (row i).except

/-- Under the mask of the REGWR rows only the select code is left. -/
theorem regWrWord_mask (sel : BitVec 2) (v : Word) :
    (regWrWord sel v).setWidth 32 &&& 0x30000#32 = sel.setWidth 32 <<< 16 := by
  have hlow : ∀ i, i < 16 → (0x30000#32).getLsbD i = false := by decide
  have hhigh : ∀ c : BitVec 2, ∀ i, i < 16 →
      (c.getLsbD i && (0x30000#32).getLsbD (16 + i)) = (c.setWidth 32 <<< 16).getLsbD (16 + i) := by decide
  apply BitVec.eq_of_getLsbD_eq
  intro i hi
  simp only [regWrWord, BitVec.getLsbD_and, BitVec.getLsbD_setWidth, hi, decide_true, Bool.true_and, BitVec.getLsbD_append]
  by_cases h : i < 16
  · rw [hlow i h]
    simp [h]
  · have := hhigh sel (i - 16) (by omega)
    rw [Nat.add_sub_cancel' (by omega : 16 ≤ i)] at this
    rw [← this]
    simp [h]

/-- Under the mask of the `MOVE` row only the markers are left. -/
theorem frameWord_mask (x y : Byte) :
    frameWord Machine.startMarker x y Machine.endMarker &&& 0xFF0000FF#32 = 0x02000018#32 := by
  have hmid : ∀ i, i < 16 → (0xFF0000FF#32).getLsbD (8 + i) = false ∧ (0x02000018#32).getLsbD (8 + i) = false := by decide
  have hlow : ∀ i, i < 8 → (Machine.endMarker.getLsbD i && (0xFF0000FF#32).getLsbD i) = (0x02000018#32).getLsbD i := by decide
  have hhigh : ∀ i, i < 8 →
      (Machine.startMarker.getLsbD i && (0xFF0000FF#32).getLsbD (24 + i)) = (0x02000018#32).getLsbD (24 + i) := by decide
  apply BitVec.eq_of_getLsbD_eq
  intro i hi
  simp only [frameWord, BitVec.getLsbD_and, BitVec.getLsbD_append]
  by_cases h1 : i < 8
  · rw [← hlow i h1]
    simp [h1]
  · by_cases h2 : i < 24
    · have := hmid (i - 8) (by omega)
      rw [Nat.add_sub_cancel' (by omega : 8 ≤ i)] at this
      rw [this.1, this.2, Bool.and_false]
    · have := hhigh (i - 24) (by omega)
      rw [Nat.add_sub_cancel' (by omega : 24 ≤ i)] at this
      rw [← this]
      simp [h1, show ¬i - 8 < 8 by omega, show ¬i - 8 - 8 < 8 by omega, show i - 8 - 8 - 8 = i - 24 by omega]

theorem setWidth_injective {a b : Byte} (h : a.setWidth 32 = b.setWidth 32) : a = b := by
  have := congrArg BitVec.toNat h
  rw [BitVec.toNat_setWidth_of_le (by decide), BitVec.toNat_setWidth_of_le (by decide)] at this
  exact BitVec.eq_of_toNat_eq this

namespace TableRow

theorem build (min max steps : Word) : Statement (.build min max steps) := fun _ => by simp [bitsOf, encode, row]
theorem setPeriod (v : Word) : Statement (.setPeriod v) := fun _ =>
  ⟨rfl, (regWrWord_mask 0 v).trans (by simp [row]), by simp [row]⟩
theorem setChX (v : Word) : Statement (.setChX v) := fun _ =>
  ⟨rfl, (regWrWord_mask 1 v).trans (by simp [row]), by simp [row]⟩
theorem setChY (v : Word) : Statement (.setChY v) := fun _ =>
  ⟨rfl, (regWrWord_mask 2 v).trans (by simp [row]), by simp [row]⟩
theorem pBound : Statement .pBound := fun _ => by simp [bitsOf, encode, row]
theorem initPwm (p dx dy : Word) : Statement (.initPwm p dx dy) := fun _ => by simp [bitsOf, encode, row]
theorem rxOff (b : Byte) : Statement (.rxOff b) := fun _ => by simp [bitsOf, encode, row]
theorem rxStartHit : Statement .rxStartHit := fun _ => by decide
theorem rxStartMiss (b : Byte) : Statement (.rxStartMiss b) := fun h => by
  refine ⟨rfl, by simp [row], fun hm => ?_⟩
  have hb : b = Machine.startMarker := setWidth_injective (List.mem_singleton.1 hm)
  subst hb
  exact absurd h (by decide)
theorem rxX (b : Byte) : Statement (.rxX b) := fun _ => by simp [bitsOf, encode, row]
theorem rxY (b : Byte) : Statement (.rxY b) := fun _ => by simp [bitsOf, encode, row]
theorem rxEndCommit : Statement .rxEndCommit := fun _ => by decide
theorem rxEndDiscard (b : Byte) : Statement (.rxEndDiscard b) := fun h => by
  refine ⟨rfl, by simp [row], fun hm => ?_⟩
  have hb : b = Machine.endMarker := setWidth_injective (List.mem_singleton.1 hm)
  subst hb
  exact absurd h (by decide)
theorem move (x y : Byte) : Statement (.move x y) := fun _ => ⟨rfl, frameWord_mask x y, by simp [row]⟩
theorem rxEnable : Statement .rxEnable := fun _ => by simp [bitsOf, encode, row]
theorem idle : Statement .idle := fun _ => by simp [bitsOf, encode, row]
theorem reset : Statement .reset := fun _ => by simp [bitsOf, encode, row]

end TableRow

end Sys2Proof.Laws
end

