-- ==== Sys2Proof/Laws/Step.lean ====
section
/-! SUPPORT. What one step does, by the event that comes next, and how runs and deliveries unroll. -/

namespace Sys2Proof.Machine

/-! ### One step -/

theorem step_of_nil {s : State} (h : s.inputs = []) : step s = .next s := by
  simp [step, fetch, h, unfoldFrame, exec, execIdle]

/-- A frame that decodes as a unit, and every other event, stands for itself. -/
theorem unfoldFrame_of_ok {en : Bool} {st : RxState} {e : Event} {rest : List Event} {i : Instr}
    (h : decode en st e = .ok i) : unfoldFrame en st (e :: rest) = e :: rest := by
  cases e with
  | frame4 w =>
    have hw : decodeFrame en st w = .ok i := h
    simp [unfoldFrame, hw]
  | _ => rfl

theorem step_of_decode {s : State} {e : Event} {rest : List Event} {i : Instr} (hi : s.inputs = e :: rest)
    (hd : decode s.rxEn s.state e = .ok i) : step s = exec i (s.putInputs rest) := by
  simp [step, fetch, hi, unfoldFrame_of_ok hd, hd]

theorem step_of_reserved {s : State} {e : Event} {rest : List Event} (hi : s.inputs = e :: rest)
    (hd : decode s.rxEn s.state e = .error .reservedSelect) : step s = .refused .reservedSelect := by
  cases e with
  | frame4 w => exact absurd (decodeFrame_error hd) (by decide)
  | regWr w => simp [step, fetch, hi, unfoldFrame, hd, refusalOf]
  | _ => cases hd

theorem step_of_rxByte {s : State} {b : Byte} {rest : List Event} (hi : s.inputs = .rxByte b :: rest) :
    step s = rxByte b (s.putInputs rest) := by
  rw [step_of_decode hi (i := decodeByte s.rxEn s.state b) rfl, rxByte_eq_exec]
  rfl

/-- A frame that is no unit here runs as its bytes, the first of them now (R60). -/
theorem step_of_frame {s : State} {w : FrameWord} {rest : List Event} (hi : s.inputs = .frame4 w :: rest)
    (hd : decode s.rxEn s.state (.frame4 w) = .error .notAUnit) :
    step s = step (s.putInputs ((frameBytes w).map Event.rxByte ++ rest)) := by
  have hw : decodeFrame s.rxEn s.state w = .error .notAUnit := hd
  simp [step, fetch, hi, unfoldFrame, hw, frameBytes]

theorem step_of_frame_bytes {s : State} {w : FrameWord} {rest : List Event} (hi : s.inputs = .frame4 w :: rest)
    (hd : decode s.rxEn s.state (.frame4 w) = .error .notAUnit) :
    step s = rxByte (frameStart w)
      (s.putInputs (.rxByte (frameX w) :: .rxByte (frameY w) :: .rxByte (frameEnd w) :: rest)) := by
  rw [step_of_frame hi hd]
  exact step_of_rxByte rfl

/-- All that one step can do: idle, run the next event's operation, run the first byte of a frame that is no unit, or refuse a
reserved register write. -/
theorem step_cases (s : State) :
    (s.inputs = [] ∧ step s = .next s) ∨
    (∃ e rest i, s.inputs = e :: rest ∧ decode s.rxEn s.state e = .ok i ∧ step s = exec i (s.putInputs rest)) ∨
    (∃ w rest, s.inputs = .frame4 w :: rest ∧ step s = rxByte (frameStart w)
      (s.putInputs (.rxByte (frameX w) :: .rxByte (frameY w) :: .rxByte (frameEnd w) :: rest))) ∨
    (∃ w rest, s.inputs = .regWr w :: rest ∧ step s = .refused .reservedSelect) := by
  cases hi : s.inputs with
  | nil => exact .inl ⟨rfl, step_of_nil hi⟩
  | cons e rest =>
    refine .inr ?_
    cases hd : decode s.rxEn s.state e with
    | ok i => exact .inl ⟨e, rest, i, rfl, hd, step_of_decode hi hd⟩
    | error r =>
      refine .inr ?_
      cases e with
      | frame4 w =>
        have hr := decodeFrame_error hd
        subst hr
        exact .inl ⟨w, rest, rfl, step_of_frame_bytes hi hd⟩
      | regWr w =>
        rcases decodeRegWr_cases w with ⟨-, h⟩ | ⟨-, h⟩ | ⟨-, h⟩ | ⟨-, h⟩ <;>
          rw [show decode s.rxEn s.state (.regWr w) = decodeRegWr w from rfl, h] at hd
        all_goals cases hd
        exact .inr ⟨w, rest, rfl, step_of_reserved hi h⟩
      | _ => cases hd

/-- What is fetched when the next event decodes: its operation, the event consumed. -/
theorem fetch_of_decode {s : State} {e : Event} {rest : List Event} {i : Instr} (hi : s.inputs = e :: rest)
    (hd : decode s.rxEn s.state e = .ok i) : fetch s = .ok (i, s.putInputs rest) := by
  simp [fetch, hi, unfoldFrame_of_ok hd, hd]

/-- All that a step which completes can be: the fetched operation, in a state that differs in the pending events alone. -/
theorem step_next {s t : State} (h : step s = .next t) :
    ∃ i l, fetch s = .ok (i, s.putInputs l) ∧ exec i (s.putInputs l) = .next t := by
  unfold step at h
  cases hf : fetch s with
  | error r => rw [hf] at h; cases h
  | ok p =>
    obtain ⟨i, u⟩ := p
    rw [hf] at h
    unfold fetch at hf
    split at hf
    · cases hf; exact ⟨.idle, s.inputs, rfl, h⟩
    · split at hf <;> cases hf
      exact ⟨i, _, rfl, h⟩

/-! ### Runs -/

@[simp] theorem runFor_zero (s : State) : runFor 0 s = .next s := rfl

theorem runFor_succ (k : Nat) (s : State) : runFor (k + 1) s = andThen (step s) (runFor k) := by
  simp only [runFor, Host.Core.run]
  rw [show Sys2Proof.core.step s = step s from rfl]
  cases step s <;> rfl

theorem runFor_add (m n : Nat) (s : State) : runFor (m + n) s = andThen (runFor m s) (runFor n) := by
  induction m generalizing s with
  | zero => simp
  | succ m ih =>
    rw [Nat.add_right_comm, runFor_succ, runFor_succ, andThen_assoc]
    congr 1
    funext t
    exact ih t

/-! ### Deliveries -/

@[simp] theorem deliver_nil (s : State) : deliver [] s = .next s := rfl

/-- One event of a delivery runs as its operation, and the rest is delivered to what it leaves. -/
theorem deliver_cons {e : Event} {i : Instr} {s : State} (es : List Event) (hd : decode s.rxEn s.state e = .ok i) :
    deliver (e :: es) s = andThen (exec i s) (deliver es) := by
  have h1 : deliver (e :: es) s = runFor (es.length + 1) (s.putInputs (e :: es ++ s.inputs)) := rfl
  have h2 : step (s.putInputs (e :: es ++ s.inputs)) = exec i (s.putInputs (es ++ s.inputs)) := step_of_decode rfl hd
  rw [h1, runFor_succ, h2, exec_putInputs]
  cases hx : exec i s with
  | next t =>
    have ht := exec_next_inputs hx
    simp only [Result.putInputs_next, andThen_next]
    rw [← ht]
    rfl
  | fault f => rfl
  | refused r => rfl

@[simp] theorem receive_nil (s : State) : receive [] s = .next s := rfl

theorem receive_cons (b : Byte) (bs : List Byte) (s : State) :
    receive (b :: bs) s = andThen (rxByte b s) (receive bs) := by
  rw [rxByte_eq_exec]
  exact deliver_cons _ rfl

/-- Received bytes first, then other events. -/
theorem deliver_bytes_append (bs : List Byte) (es : List Event) (s : State) :
    deliver (bs.map Event.rxByte ++ es) s = andThen (receive bs s) (deliver es) := by
  induction bs generalizing s with
  | nil => rfl
  | cons b bs ih =>
    rw [List.map_cons, List.cons_append, deliver_cons (i := decodeByte s.rxEn s.state b) _ rfl, receive_cons, rxByte_eq_exec,
      andThen_assoc]
    congr 1
    funext t
    exact ih t

theorem receive_append (as bs : List Byte) (s : State) :
    receive (as ++ bs) s = andThen (receive as s) (receive bs) := by
  induction as generalizing s with
  | nil => rfl
  | cons a as ih =>
    rw [List.cons_append, receive_cons, receive_cons, andThen_assoc]
    congr 1
    funext t
    exact ih t

end Sys2Proof.Machine
end

