-- ==== Sys2Proof/Laws/Receiver.lean ====
section
/-! SUPPORT. What received bytes leave alone, and what the invariant says of the table. -/

namespace Sys2Proof.Machine

theorem initialised_iff (s : State) : s.initialised = true ↔
    s.table.writtenBelow s.cfg.steps.toNat = true ∧ s.period.isWritten = true ∧ s.chX.isWritten = true ∧
      s.chY.isWritten = true ∧ s.actX.isWritten = true ∧ s.actY.isWritten = true := by
  simp only [State.initialised, Bool.and_eq_true]
  tauto

/-- The invariant says nothing of the events to come. -/
theorem Inv.putInputs {s : State} (h : Inv s) (es : List Event) : Inv (s.putInputs es) :=
  ⟨h.1, h.2, h.3, h.4, h.5, h.6, h.7, h.8⟩

/-- Every entry below `STEPS` is written once the receiver is on. -/
theorem Inv.read_written {s : State} (h : Inv s) (hr : s.rxEn = true) {i : Nat} (hi : i < s.cfg.steps.toNat) :
    ∃ v, s.table.read i = .written v :=
  isWritten_iff.1 ((Memory.writtenBelow_iff _ _).1 ((initialised_iff s).1 (h.initialisedAfterEnable hr)).1 i hi)

/-- The fields that no received byte writes. -/
structure ByteKeeps (s t : State) : Prop where
  cfg : t.cfg = s.cfg
  inputs : t.inputs = s.inputs
  rxEn : t.rxEn = s.rxEn
  table : t.table = s.table
  period : t.period = s.period
  actX : t.actX = s.actX
  actY : t.actY = s.actY

theorem ByteKeeps.refl (s : State) : ByteKeeps s s := ⟨rfl, rfl, rfl, rfl, rfl, rfl, rfl⟩

theorem ByteKeeps.trans {s t u : State} (h : ByteKeeps s t) (k : ByteKeeps t u) : ByteKeeps s u :=
  ⟨k.1.trans h.1, k.2.trans h.2, k.3.trans h.3, k.4.trans h.4, k.5.trans h.5, k.6.trans h.6, k.7.trans h.7⟩

theorem rxByte_keeps {b : Byte} {s t : State} (h : rxByte b s = .next t) : ByteKeeps s t := by
  rw [rxByte_eq_exec] at h
  have h0 := (decodeByte_sound s.rxEn s.state b).1
  cases hd : decodeByte s.rxEn s.state b <;> rw [hd] at h h0 <;> simp only [Instr.isRx, Bool.false_eq_true] at h0
  · obtain ⟨-, rfl⟩ := execRxOff_next h; exact .refl _
  · obtain ⟨-, rfl⟩ := execRxStartHit_next h; exact ⟨rfl, rfl, rfl, rfl, rfl, rfl, rfl⟩
  · obtain ⟨-, rfl⟩ := execRxStartMiss_next h; exact ⟨rfl, rfl, rfl, rfl, rfl, rfl, rfl⟩
  · obtain ⟨-, rfl⟩ := execRxX_next h; exact ⟨rfl, rfl, rfl, rfl, rfl, rfl, rfl⟩
  · obtain ⟨-, rfl⟩ := execRxY_next h; exact ⟨rfl, rfl, rfl, rfl, rfl, rfl, rfl⟩
  · obtain ⟨-, _, _, _, _, -, -, -, -, -, -, rfl⟩ := execRxEndCommit_next h; exact ⟨rfl, rfl, rfl, rfl, rfl, rfl, rfl⟩
  · obtain ⟨-, rfl⟩ := execRxEndDiscard_next h; exact ⟨rfl, rfl, rfl, rfl, rfl, rfl, rfl⟩

theorem rxBytes_keeps {bs : List Byte} {s t : State} (h : rxBytes bs s = .next t) : ByteKeeps s t := by
  induction bs generalizing s with
  | nil => cases h; exact .refl _
  | cons b bs ih =>
    rw [rxBytes_cons] at h
    obtain ⟨u, h1, h2⟩ := andThen_eq_next h
    exact (rxByte_keeps h1).trans (ih h2)

/-- The parse skips a byte that is no start marker. -/
theorem parse_skip {last : Option (Byte × Byte)} {b : Byte} (rest : List Byte) (h : b ≠ startMarker) :
    parse last (b :: rest) = parse last rest := by
  rw [parse.eq_def]
  simp [h]

/-- The parse takes a whole frame at a start marker. -/
theorem parse_frame (last : Option (Byte × Byte)) (x y e : Byte) (more : List Byte) :
    parse last (startMarker :: x :: y :: e :: more) = parse (if e = endMarker then some (x, y) else last) more := by
  simp [parse]

end Sys2Proof.Machine
end

