-- ==== Sys2Proof/Tests/Slice0.lean ====
section
/-! SUPPORT. Small tests: ill-formed terms, decoding of words written out from R51 to R55, one step of each operation with the values
of spec/95_test_vectors.md, and for every obligation with hypotheses a state and operands that meet them. -/

namespace Sys2Proof.Tests

open Sys2Proof Sys2Proof.Machine

/-! ### States -/

/-- CFG10 of spec/95_test_vectors.md. -/
def cfg10 : Config := ⟨10, 1000, 2000, 20000, 1500, 1500, by decide, by decide⟩

/-- CFG7. -/
def cfg7 : Config := ⟨7, 600, 2400, 20000, 1500, 1500, by decide, by decide⟩

/-- CFG1. -/
def cfg1 : Config := ⟨1, 1000, 2000, 20000, 1500, 1500, by decide, by decide⟩

/-- CFG255. -/
def cfg255 : Config := ⟨255, 0, 65535, 20000, 1500, 1500, by decide, by decide⟩

/-- CFG256. -/
def cfg256 : Config := ⟨256, 0, 65535, 20000, 1500, 1500, by decide, by decide⟩

/-- The table of V-T1. -/
def table10 : Memory :=
  [(0, 1100), (1, 1200), (2, 1300), (3, 1400), (4, 1500), (5, 1600), (6, 1700), (7, 1800), (8, 1900), (9, 2000)]

/-- CFG10 after `RESET`. -/
def off10 : State := State.resetWith cfg10

/-- CFG10 before `RXENABLE`, with the table built and the timer initialised. -/
def ready10 : State :=
  { off10 with
    table := table10, period := .written 20000, chX := .written 1500, chY := .written 1500
    actX := .written 1500, actY := .written 1500 }

/-- CFG10 booted (R113). -/
def start10 : State := { ready10 with rxEn := true }

/-- Booted and in AwaitingX, `cmd = [02 -- -- --]`. -/
def x10 : State := { start10 with state := .awaitingX, cmd := ⟨.written 0x02, .unwritten, .unwritten, .unwritten⟩ }

/-- Booted and in AwaitingY, `cmd = [02 03 -- --]`. -/
def y10 : State := { start10 with state := .awaitingY, cmd := ⟨.written 0x02, .written 3, .unwritten, .unwritten⟩ }

/-- Booted and in AwaitingEnd, `cmd = [02 03 07 --]`. -/
def end10 : State := { start10 with state := .awaitingEnd, cmd := ⟨.written 0x02, .written 3, .written 7, .unwritten⟩ }

/-- `s` with `es` to come. -/
def withInputs (s : State) (es : List Event) : State := { s with inputs := es }

theorem inv_off10 : Inv off10 :=
  ⟨by decide, by decide, by decide, by decide, by decide, by decide, fun h => absurd h (by decide),
    fun h => absurd h (by decide)⟩

theorem inv_ready10 : Inv ready10 :=
  ⟨by decide, by decide, by decide, by decide, by decide, by decide, fun h => absurd h (by decide),
    fun h => absurd h (by decide)⟩

theorem inv_start10 : Inv start10 :=
  ⟨by decide, by decide, by decide, by decide, by decide, by decide, fun h => absurd h (by decide),
    fun h => absurd h (by decide)⟩

theorem inv_x10 : Inv x10 :=
  ⟨by decide, by decide, by decide, by decide, by decide, by decide, fun h => absurd h (by decide),
    fun h => absurd h (by decide)⟩

theorem inv_y10 : Inv y10 :=
  ⟨by decide, by decide, by decide, by decide, by decide, by decide, fun _ => ⟨3, rfl, by decide⟩, fun h => absurd h (by decide)⟩

theorem inv_end10 : Inv end10 :=
  ⟨by decide, by decide, by decide, by decide, by decide, by decide, fun _ => ⟨3, rfl, by decide⟩,
    fun _ => ⟨7, rfl, by decide⟩⟩

/-! ### Ill-formed terms -/

theorem test_wf_refuses_startMiss_of_startMarker : (Instr.rxStartMiss 0x02).wf = false := by decide
theorem test_wf_refuses_discard_of_endMarker : (Instr.rxEndDiscard 0x18).wf = false := by decide
theorem test_wf_admits_neighbours :
    (Instr.rxStartMiss 0x03).wf = true ∧ (Instr.rxStartMiss 0x18).wf = true ∧ (Instr.rxEndDiscard 0x17).wf = true ∧
      (Instr.rxEndDiscard 0x02).wf = true := by decide

/-! ### Decoding, from words written out bit by bit -/

/-- V-P3 `0x04E20`, V-P4 `0x10708`, P4 step 9 `0x20514`, and the reserved words of V-P15. -/
theorem test_decode_regWr :
    decode false .awaitingStart (.regWr 0b000100111000100000) = .ok (.setPeriod 20000) ∧
    decode true .awaitingX (.regWr 0b010000011100001000) = .ok (.setChX 1800) ∧
    decode false .awaitingStart (.regWr 0b100000010100010100) = .ok (.setChY 1300) ∧
    decode false .awaitingStart (.regWr 0b110000000000000000) = .error .reservedSelect ∧
    decode false .awaitingStart (.regWr 0b111111111111111111) = .error .reservedSelect := by decide

/-- Section 2.3 of the vectors: V-R1, V-R4, V-R12, V-R13, V-R15, V-R17, V-R19. -/
theorem test_decode_byte :
    decode true .awaitingStart (.rxByte 0b00000010) = .ok .rxStartHit ∧
    decode true .awaitingStart (.rxByte 0b00000011) = .ok (.rxStartMiss 3) ∧
    decode true .awaitingX (.rxByte 0b00000010) = .ok (.rxX 2) ∧
    decode true .awaitingY (.rxByte 0b00011000) = .ok (.rxY 0x18) ∧
    decode true .awaitingEnd (.rxByte 0b00011000) = .ok .rxEndCommit ∧
    decode true .awaitingEnd (.rxByte 0b10011000) = .ok (.rxEndDiscard 0x98) ∧
    decode false .awaitingStart (.rxByte 0b00000010) = .ok (.rxOff 2) := by decide

/-- `MOVE 200, 10` is `0x02C80A18`; `0x020307FF` fails the mask test (program P2); a frame that does not start in AwaitingStart is
no unit. -/
theorem test_decode_frame :
    decode true .awaitingStart (.frame4 0b00000010110010000000101000011000) = .ok (.move 200 10) ∧
    decode true .awaitingStart (.frame4 0x020307FF) = .error .notAUnit ∧
    decode true .awaitingX (.frame4 0x02030718) = .error .notAUnit ∧
    decode false .awaitingStart (.frame4 0x02030718) = .error .notAUnit ∧
    (frameBytes 0x02030718).length = frameLen := by decide

/-- R54: an EVENT is its own operation. -/
theorem test_decode_event :
    decode false .awaitingStart (.build 1000 2000 10) = .ok (.build 1000 2000 10) ∧
    decode false .awaitingStart (.initPwm 20000 1500 1600) = .ok (.initPwm 20000 1500 1600) ∧
    decode true .awaitingY .pBound = .ok .pBound ∧ decode false .awaitingStart .rxEnable = .ok .rxEnable ∧
    decode true .awaitingX .idle = .ok .idle ∧ decode true .awaitingEnd .reset = .ok .reset := by decide

/-- R32: `0x98` arrives as 1, 0, 0, 1, 1, 0, 0, 0. -/
theorem test_serial_bits : byteOfSerial true false false true true false false false = 0x98 := by decide

/-- The words of the opcode table's rows that have bits. -/
theorem test_table_words :
    decodeTableWord 8 0x02 = some .rxStartHit ∧ decodeTableWord 8 0x18 = some .rxEndCommit ∧
    decodeTableWord 8 0x00 = some (.rxOff 0) ∧ decodeTableWord 24 0x00000 = some (.setPeriod 0) ∧
    decodeTableWord 18 0x10708 = some (.setChX 1800) ∧ decodeTableWord 24 0x20514 = some (.setChY 1300) ∧
    decodeTableWord 24 0x30000 = none ∧ decodeTableWord 32 0x02000018 = some (.move 0 0) ∧
    decodeTableWord 32 0x020307FF = none ∧ decodeTableWord 8 0x100 = none ∧ decodeTableWord 0 0 = none := by decide

/-! ### One step of each operation -/

/-- V-T2: CFG7, the truncated step 257. -/
theorem test_build : exec (.build 600 2400 7) (State.resetWith cfg7) = .next { State.resetWith cfg7 with
    table := [(0, 857), (1, 1114), (2, 1371), (3, 1628), (4, 1885), (5, 2142), (6, 2399)] } := by rfl
/-- V-T5: one step, and the loop body never runs. -/
theorem test_build_one : exec (.build 1000 2000 1) (State.resetWith cfg1) = .next { State.resetWith cfg1 with
    table := [(0, 2000)] } := by rfl
/-- V-P3. -/
theorem test_setPeriod : exec (.setPeriod 20000) off10 = .next { off10 with period := .written 20000 } := by rfl
/-- V-P4. -/
theorem test_setChX : exec (.setChX 1800) ready10 = .next { ready10 with chX := .written 1800 } := by rfl
/-- V-P6. -/
theorem test_setChY : exec (.setChY 0) ready10 = .next { ready10 with chY := .written 0 } := by rfl
/-- V-P5. -/
theorem test_pBound : exec .pBound { ready10 with chX := .written 1800 } =
    .next { ready10 with chX := .written 1800, actX := .written 1800 } := by rfl
/-- V-P10: `CHY` unwritten. -/
theorem test_pBound_refused : exec .pBound { off10 with period := .written 20000, chX := .written 1200 } =
    .refused .timerNotConfigured := by rfl
/-- V-P2. -/
theorem test_initPwm : exec (.initPwm 0 65535 0) off10 = .next { off10 with
    period := .written 0, chX := .written 65535, chY := .written 0, actX := .written 65535, actY := .written 0 } := by rfl
/-- V-R19. -/
theorem test_rxOff : exec (.rxOff 0x02) off10 = .next off10 := by rfl
/-- V-R1. -/
theorem test_rxStartHit : exec .rxStartHit start10 = .next x10 := by rfl
/-- V-R3. -/
theorem test_rxStartMiss : exec (.rxStartMiss 0x18) start10 = .next { start10 with
    cmd := ⟨.written 0x18, .unwritten, .unwritten, .unwritten⟩ } := by rfl
/-- V-R6. -/
theorem test_rxX : exec (.rxX 9) x10 = .next { x10 with
    cmd := ⟨.written 2, .written 9, .unwritten, .unwritten⟩, state := .awaitingY } := by rfl
/-- V-R7. -/
theorem test_rxX_clamped : exec (.rxX 10) x10 = .next { x10 with
    cmd := ⟨.written 2, .written 9, .unwritten, .unwritten⟩, state := .awaitingY } := by rfl
/-- V-R10. -/
theorem test_rxY : exec (.rxY 7) y10 = .next end10 := by rfl
/-- V-R11. -/
theorem test_rxY_clamped : exec (.rxY 0xC8) y10 = .next { y10 with
    cmd := ⟨.written 2, .written 3, .written 9, .unwritten⟩, state := .awaitingEnd } := by rfl
/-- V-R15: crossed. -/
theorem test_rxEndCommit : exec .rxEndCommit end10 = .next { end10 with
    cmd := ⟨.written 2, .written 3, .written 7, .written 0x18⟩, chX := .written 1800, chY := .written 1400
    state := .awaitingStart } := by rfl
/-- V-R14: a start marker here is a bad end. -/
theorem test_rxEndDiscard : exec (.rxEndDiscard 0x02) end10 = .next { end10 with
    cmd := ⟨.written 2, .written 3, .written 7, .written 2⟩, state := .awaitingStart } := by rfl
/-- V-S5: both indices clamped. -/
theorem test_move : exec (.move 200 10) start10 = .next { start10 with
    cmd := ⟨.written 2, .written 9, .written 9, .written 0x18⟩, chX := .written 2000, chY := .written 2000 } := by rfl
/-- V-S6: the crossing made visible. -/
theorem test_move_crossed : exec (.move 9 0) start10 = .next { start10 with
    cmd := ⟨.written 2, .written 9, .written 0, .written 0x18⟩, chX := .written 1100, chY := .written 2000 } := by rfl
/-- V-I5. -/
theorem test_rxEnable : exec .rxEnable ready10 = .next start10 := by rfl
/-- V-I3: the timer registers are unwritten. -/
theorem test_rxEnable_refused : exec .rxEnable { off10 with table := table10 } = .refused .notInitialised := by rfl
/-- V-I12. -/
theorem test_idle : exec .idle start10 = .next start10 := by rfl
/-- V-I11: a frame in progress is lost. -/
theorem test_reset : exec .reset y10 = .next off10 := by rfl

/-- V-R20, V-R21, V-R22: the clamp at `STEPS` 256, 255 and 1. -/
theorem test_clamp :
    clamp cfg256 0xFF = 0xFF ∧ clamp cfg255 0xFE = 0xFE ∧ clamp cfg255 0xFF = 0xFE ∧ clamp cfg1 0 = 0 ∧
      clamp cfg1 1 = 0 ∧ clamp cfg1 0xFF = 0 := by decide

/-- A step takes the next event and leaves the rest; a frame that is no unit gives its first byte to the receiver (R60). -/
theorem test_step_takes_one_event :
    step (withInputs y10 [.frame4 0x07180203, .idle]) =
      .next (withInputs end10 [.rxByte 0x18, .rxByte 0x02, .rxByte 0x03, .idle]) := by rfl

/-- The host's words after reset: a byte with the receiver off, the start marker, a register write. -/
theorem test_fetch_word :
    step (off10.withFetchWord 8 0x55) = .next off10 ∧
    step (off10.withFetchWord 8 0x02) = .next { off10 with
      rxEn := true, state := .awaitingX, cmd := ⟨.written 2, .unwritten, .unwritten, .unwritten⟩ } ∧
    step (off10.withFetchWord 24 0x04E20) = .next { off10 with period := .written 20000 } ∧
    step (start10.withFetchWord 32 0x02090018) = exec (.move 9 0) start10 := ⟨rfl, rfl, rfl, rfl⟩

/-! ### Witnesses: what the hypotheses of each obligation are met by, clause by clause, at the edges of the ranges -/

theorem test_witness_DecodeOfEncode :
    ((Instr.move 0 255).wf = true ∧ (Instr.move 0 255).selectedIn true .awaitingStart = true) ∧
    ((Instr.rxStartMiss 0x03).wf = true ∧ (Instr.rxStartMiss 0x03).selectedIn true .awaitingStart = true) ∧
    ((Instr.rxEndDiscard 0x19).wf = true ∧ (Instr.rxEndDiscard 0x19).selectedIn true .awaitingEnd = true) ∧
    ((Instr.setChY 0xFFFF).wf = true ∧ (Instr.setChY 0xFFFF).selectedIn false .awaitingX = true) := by decide

theorem test_witness_EncodeOfDecode :
    decode true .awaitingStart (.frame4 0x0200FF18) = .ok (.move 0 255) ∧
    decode true .awaitingEnd (.rxByte 0x18) = .ok .rxEndCommit ∧
    decode false .awaitingX (.regWr 0x2FFFF) = .ok (.setChY 0xFFFF) := by decide

theorem test_witness_ByteSelectsItsOperation :
    (0x02 : Byte) = 0x02 ∧ (0x03 : Byte) ≠ 0x02 ∧ (0x18 : Byte) = 0x18 ∧ (0x17 : Byte) ≠ 0x18 := by decide

theorem test_witness_EveryByteHasExactlyOneOperation :
    Inv (withInputs end10 [.rxByte 0x18]) ∧ (withInputs end10 [.rxByte 0x18]).inputs = .rxByte 0x18 :: [] :=
  ⟨inv_end10.putInputs _, rfl⟩

theorem test_witness_FrameWordMatchesItsPattern :
    (0x02030718#32 &&& 0xFF0000FF#32) = 0x02000018#32 ∧ (0x020307FF#32 &&& 0xFF0000FF#32) ≠ 0x02000018#32 ∧
      (0x03030718#32 &&& 0xFF0000FF#32) ≠ 0x02000018#32 := by decide

theorem test_witness_ReservedSelectIsRefused :
    (0x30000 : RegWrWord).extractLsb' 16 2 = 3#2 ∧ (0x3FFFF : RegWrWord).extractLsb' 16 2 = 3#2 ∧
      (withInputs off10 [.regWr 0x30000]).inputs = .regWr 0x30000 :: [] := by decide

theorem test_witness_StepRunsTheDecodedOperation :
    off10.inputs = [] ∧
    ((withInputs start10 [.frame4 0x02030718]).inputs = .frame4 0x02030718 :: [] ∧
      decode start10.rxEn start10.state (.frame4 0x02030718) = .ok (.move 3 7)) ∧
    ((withInputs x10 [.frame4 0x02030718]).inputs = .frame4 0x02030718 :: [] ∧
      decode x10.rxEn x10.state (.frame4 0x02030718) = .error .notAUnit) ∧
    decode x10.rxEn x10.state (.regWr 0x30000) = .error .reservedSelect := by decide

theorem test_witness_FetchWordRunsItsOperation :
    decodeTableWord 8 0xFF = some (.rxOff 0xFF) ∧ decodeTableWord 24 0x2FFFF = some (.setChY 0xFFFF) ∧
      decodeTableWord 32 0x02FFFF18 = some (.move 0xFF 0xFF) := by decide

theorem test_witness_ConfigurationIsBuiltWithinItsConstraints :
    (0 < (1 : Word).toNat ∧ (0 : Word).toNat < (1 : Word).toNat) ∧
    (0 < (0xFFFF : Word).toNat ∧ (0 : Word).toNat < (0xFFFF : Word).toNat) ∧
    ¬(0 < (0 : Word).toNat ∧ (0 : Word).toNat < (1 : Word).toNat) ∧
    ¬(0 < (1 : Word).toNat ∧ (7 : Word).toNat < (7 : Word).toNat) := by decide

theorem test_witness_BuildFillsTheTable :
    (1000 : Word).toNat < (2000 : Word).toNat ∧ (10 : Word) = off10.cfg.steps ∧ off10.rxEn = false ∧
      off10.table.read 0 = .unwritten ∧ 9 < (10 : Word).toNat ∧ (10 : Word).toNat ≤ 10 := by decide

theorem test_witness_BuiltTableRisesByItsStep :
    exec (.build 1000 2000 1) (State.resetWith cfg1) = .next { State.resetWith cfg1 with table := [(0, 2000)] } ∧
    (exec (.build 1000 2000 10) off10 = .next { off10 with table := table10 } ∧ 2 ≤ (10 : Word).toNat ∧
      8 + 1 < (10 : Word).toNat) := ⟨rfl, rfl, by decide, by decide⟩

theorem test_witness_BuildRefusals :
    (1000 : Word).toNat ≤ (1000 : Word).toNat ∧ (0 : Word).toNat = 0 ∧ (11 : Word) ≠ off10.cfg.steps ∧
    ((1000 : Word).toNat < (2000 : Word).toNat ∧ (10 : Word) = start10.cfg.steps ∧ start10.rxEn = true) ∧
    ((10 : Word) = ready10.cfg.steps ∧ ready10.rxEn = false ∧ ready10.table.read 0 = .written 1100) := by decide

theorem test_witness_TableIsImmutableOnceBuilt :
    exec (.build 1000 2000 10) off10 = .next { off10 with table := table10 } ∧ exec .reset y10 = .next off10 ∧
      exec .rxEndCommit end10 = .next { end10 with
        cmd := ⟨.written 2, .written 3, .written 7, .written 0x18⟩, chX := .written 1800, chY := .written 1400
        state := .awaitingStart } := ⟨rfl, rfl, rfl⟩

theorem test_witness_RegisterWritesBeforeEnable : off10.rxEn = false := by decide

theorem test_witness_RegisterWritesRefusedAfterEnable : start10.rxEn = true := by decide

theorem test_witness_PeriodBoundaryCopiesThePair :
    start10.period = .written 20000 ∧ start10.chX = .written 1500 ∧ start10.chY = .written 1500 := by decide

theorem test_witness_PeriodBoundaryNeedsATimer :
    { ready10 with period := .unwritten }.period = .unwritten ∧ { ready10 with chX := .unwritten }.chX = .unwritten ∧
      { ready10 with chY := .unwritten }.chY = .unwritten := by decide

theorem test_witness_InitPwmLoadsFiveRegisters : ready10.rxEn = false := by decide

theorem test_witness_LastWriteBeforeTheBoundaryTakesEffect :
    (ready10.period = .written 20000 ∧ ready10.chX = .written 1500 ∧ ready10.chY = .written 1500 ∧ ready10.rxEn = false) ∧
    (start10.period = .written 20000 ∧ start10.chX = .written 1500 ∧ start10.chY = .written 1500 ∧ start10.rxEn = true ∧
      start10.state = .awaitingStart ∧ start10.table.read (clamp start10.cfg 7).toNat = .written 1800 ∧
      start10.table.read (clamp start10.cfg 3).toNat = .written 1400 ∧
      start10.table.read (clamp start10.cfg 10).toNat = .written 2000 ∧
      start10.table.read (clamp start10.cfg 0).toNat = .written 1100) := by decide

theorem test_witness_ClampLaws :
    cfg10.steps.toNat ≤ (10 : Byte).toNat ∧ (9 : Byte).toNat < cfg10.steps.toNat ∧ cfg255.steps.toNat ≤ (255 : Byte).toNat ∧
      256 ≤ cfg256.steps.toNat ∧ (255 : Byte).toNat < cfg256.steps.toNat := by decide

theorem test_witness_ByteWhileOffChangesNothing : off10.rxEn = false := by decide

theorem test_witness_StartMarkerBeginsAFrame : start10.rxEn = true ∧ start10.state = .awaitingStart := by decide

theorem test_witness_OtherByteKeepsAwaitingStart :
    start10.rxEn = true ∧ start10.state = .awaitingStart ∧ (0x03 : Byte) ≠ 0x02 ∧ (0x18 : Byte) ≠ 0x02 := by decide

theorem test_witness_IndexBytesAreStoredClamped :
    x10.rxEn = true ∧ y10.rxEn = true ∧ x10.state = .awaitingX ∧ y10.state = .awaitingY ∧
    (9 : Byte).toNat = (if (9 : Byte).toNat < x10.cfg.steps.toNat then (9 : Byte).toNat else x10.cfg.steps.toNat - 1) ∧
    (9 : Byte).toNat = (if (10 : Byte).toNat < y10.cfg.steps.toNat then (10 : Byte).toNat else y10.cfg.steps.toNat - 1) := by
  decide

theorem test_witness_CommitWritesBothChannelsCrossed :
    end10.rxEn = true ∧ end10.state = .awaitingEnd ∧ end10.cmd.c1 = .written 3 ∧ end10.cmd.c2 = .written 7 ∧
      (3 : Byte).toNat ≤ end10.cfg.steps.toNat ∧ (7 : Byte).toNat ≤ end10.cfg.steps.toNat ∧
      end10.table.read (7 : Byte).toNat = .written 1800 ∧ end10.table.read (3 : Byte).toNat = .written 1400 := by decide

/-- `end10` with the index registers `x` and `y`. -/
def endWith (x y : Reg 8) : State := { end10 with cmd := ⟨.written 2, x, y, .unwritten⟩ }

theorem test_witness_CommitStopsOnUnwrittenOperands :
    ((endWith (.written 3) .unwritten).rxEn = true ∧ (endWith (.written 3) .unwritten).state = .awaitingEnd) ∧
    (endWith (.written 3) .unwritten).cmd.c2 = .unwritten ∧
    ((endWith .unwritten (.written 7)).cmd.c2 = .written 7 ∧ (endWith .unwritten (.written 7)).cmd.c1 = .unwritten) ∧
    ((endWith (.written 3) (.written 11)).cmd.c2 = .written 11 ∧ (endWith (.written 3) (.written 11)).cmd.c1 = .written 3 ∧
      (endWith (.written 3) (.written 11)).cfg.steps.toNat < (11 : Byte).toNat) ∧
    ((endWith (.written 3) (.written 10)).cmd.c2 = .written 10 ∧ (endWith (.written 3) (.written 10)).cmd.c1 = .written 3 ∧
      (10 : Byte).toNat ≤ (endWith (.written 3) (.written 10)).cfg.steps.toNat ∧
      (endWith (.written 3) (.written 10)).table.read (10 : Byte).toNat = .unwritten) ∧
    ((endWith (.written 11) (.written 9)).cmd.c2 = .written 9 ∧ (endWith (.written 11) (.written 9)).cmd.c1 = .written 11 ∧
      (9 : Byte).toNat ≤ (endWith (.written 11) (.written 9)).cfg.steps.toNat ∧
      (endWith (.written 11) (.written 9)).table.read (9 : Byte).toNat = .written 2000 ∧
      (endWith (.written 11) (.written 9)).cfg.steps.toNat < (11 : Byte).toNat) ∧
    ((endWith (.written 10) (.written 9)).cmd.c2 = .written 9 ∧ (endWith (.written 10) (.written 9)).cmd.c1 = .written 10 ∧
      (endWith (.written 10) (.written 9)).table.read (9 : Byte).toNat = .written 2000 ∧
      (10 : Byte).toNat ≤ (endWith (.written 10) (.written 9)).cfg.steps.toNat ∧
      (endWith (.written 10) (.written 9)).table.read (10 : Byte).toNat = .unwritten) := by decide

theorem test_witness_WrongEndByteDiscardsTheFrame :
    end10.rxEn = true ∧ end10.state = .awaitingEnd ∧ (0x17 : Byte) ≠ 0x18 ∧ (0x02 : Byte) ≠ 0x18 := by decide

theorem test_witness_MoveNetEffect :
    start10.rxEn = true ∧ start10.state = .awaitingStart ∧
      start10.table.read (clamp start10.cfg 10).toNat = .written 2000 ∧
      start10.table.read (clamp start10.cfg 3).toNat = .written 1400 := by decide

theorem test_witness_UnselectedByteOperationIsRefused :
    ((Instr.rxEndDiscard 0x18).isRx = true ∧ (Instr.rxEndDiscard 0x18).wf = false) ∧
    ((Instr.rxX 3).isRx = true ∧ (Instr.rxX 3).selectedIn start10.rxEn start10.state = false) := by decide

theorem test_witness_NoResynchronisationInsideAFrame :
    ((withInputs x10 [.rxByte 0x02]).rxEn = true ∧ (withInputs x10 [.rxByte 0x02]).inputs = .rxByte 0x02 :: [] ∧
      (withInputs x10 [.rxByte 0x02]).state = .awaitingX) ∧
    ((withInputs y10 [.rxByte 0x02]).rxEn = true ∧ (withInputs y10 [.rxByte 0x02]).inputs = .rxByte 0x02 :: [] ∧
      (withInputs y10 [.rxByte 0x02]).state = .awaitingY) ∧
    ((withInputs end10 [.rxByte 0x02]).rxEn = true ∧ (withInputs end10 [.rxByte 0x02]).inputs = .rxByte 0x02 :: [] ∧
      (withInputs end10 [.rxByte 0x02]).state = .awaitingEnd) := by decide

theorem test_witness_PseudoInstructionEffects :
    start10.rxEn = true ∧ start10.state = .awaitingStart ∧ (0x99 : Byte) ≠ 0x02 ∧ (0xFF : Byte) ≠ 0x18 := by decide

/-- P2's stream: its last committed frame is `MOVE 200, 10`; a stream that ends in mid-frame; one without a commit. -/
theorem test_witness_StreamIsParsedFrameByFrame :
    (Inv start10 ∧ start10.rxEn = true ∧ start10.state = .awaitingStart) ∧
    (parse none [0x99, 0x02, 0x02, 0x05, 0x18, 0x02, 0x03, 0x07, 0xFF, 0x02, 0xC8, 0x0A, 0x18]).1 = some (200, 10) ∧
    (parse none [0x02, 0x03, 0x07, 0xFF, 0x02, 0x04]).1 = none :=
  ⟨⟨inv_start10, rfl, rfl⟩, by simp [parse, startMarker, endMarker], by simp [parse, startMarker, endMarker]⟩

theorem test_witness_GarbagePrefixIsTransparent :
    start10.rxEn = true ∧ start10.state = .awaitingStart ∧ (∀ b ∈ ([0x99, 0x18] : List Byte), b ≠ 0x02) ∧
      ([0x99, 0x18] : List Byte).getLast? = some 0x18 := by decide

theorem test_witness_ThreeNeutralBytesRealign :
    end10.rxEn = true ∧ ∀ b ∈ ([0x05, 0x06, 0x07] : List Byte), b ≠ 0x02 ∧ b ≠ 0x18 := by decide

theorem test_witness_ReceiverReturnsWithinThreeBytes :
    exec .rxEndCommit end10 = .next { end10 with
      cmd := ⟨.written 2, .written 3, .written 7, .written 0x18⟩, chX := .written 1800, chY := .written 1400
      state := .awaitingStart } ∧
    exec (.rxEndDiscard 0xFF) end10 = .next { end10 with
      cmd := ⟨.written 2, .written 3, .written 7, .written 0xFF⟩, state := .awaitingStart } ∧
    Inv x10 := ⟨rfl, rfl, inv_x10⟩

theorem test_witness_StateFollowsItsSuccessorRelation :
    exec .rxStartHit start10 = .next x10 ∧ Instr.rxStartHit ≠ .reset ∧ (∀ x y, Instr.rxStartHit ≠ .move x y) ∧
      exec .rxEnable ready10 = .next start10 := ⟨rfl, by decide, (fun _ _ h => by cases h), rfl⟩

theorem test_witness_EnableNeedsAnInitialisedBlock :
    ((∀ i, i < ready10.cfg.steps.toNat → ready10.table.read i ≠ .unwritten) ∧ ready10.period ≠ .unwritten ∧
      ready10.chX ≠ .unwritten ∧ ready10.chY ≠ .unwritten ∧ ready10.actX ≠ .unwritten ∧ ready10.actY ≠ .unwritten) ∧
    (9 < off10.cfg.steps.toNat ∧ { ready10 with table := table10.dropLast }.table.read 9 = .unwritten) ∧
    { ready10 with actY := .unwritten }.actY = .unwritten := by decide

theorem test_witness_OperationsWriteOnlyTheirRegisters :
    exec (.rxX 10) x10 = .next { x10 with
      cmd := ⟨.written 2, .written 9, .unwritten, .unwritten⟩, state := .awaitingY } ∧ off10.inputs = [] := ⟨rfl, rfl⟩

theorem test_witness_NoTimeoutOnAPartialFrame :
    (y10.period = .written 20000 ∧ y10.chX = .written 1500 ∧ y10.chY = .written 1500 ∧
      ∀ e ∈ [Event.pBound, .idle, .pBound], e = .pBound ∨ e = .idle) ∧
    ((withInputs y10 [.pBound]).inputs = .pBound :: [] ∧ step (withInputs y10 [.pBound]) = .next y10) ∧
    ((∀ b, Event.pBound ≠ .rxByte b) ∧ (∀ w, Event.pBound ≠ .frame4 w) ∧ Event.pBound ≠ .reset) :=
  ⟨by decide, ⟨rfl, rfl⟩, (fun _ h => by cases h), (fun _ h => by cases h), by decide⟩

theorem test_witness_OnlyResetClearsTheEnable :
    (step (withInputs start10 [.reset]) = .next off10 ∧ start10.rxEn = true ∧ off10.rxEn = false) ∧
    (step (withInputs ready10 [.rxEnable]) = .next start10 ∧ ready10.rxEn = false ∧ start10.rxEn = true) :=
  ⟨⟨rfl, rfl, rfl⟩, rfl, rfl, rfl⟩

/-- A `PBOUND` and an `IDLE` among the bytes of `MOVE 3, 7`, whole and cut short. -/
theorem test_witness_FrameSurvivesInterleavedBoundaries :
    (Inv start10 ∧ start10.rxEn = true ∧ start10.state = .awaitingStart) ∧
    (∀ e ∈ [Event.rxByte 2, .pBound, .rxByte 3, .rxByte 7, .idle, .rxByte 0x18],
      e = .pBound ∨ e = .idle ∨ ∃ b, e = .rxByte b) ∧
    [Event.rxByte 2, .pBound, .rxByte 3, .rxByte 7, .idle, .rxByte 0x18].filter (fun e => e != .pBound && e != .idle) =
      ([0x02, 3, 7, 0x18] : List Byte).map Event.rxByte ∧
    [Event.rxByte 2, .pBound, .rxByte 3, .rxByte 7].filter (fun e => e != .pBound && e != .idle) =
      ([0x02, 3, 7] : List Byte).map Event.rxByte :=
  ⟨⟨inv_start10, rfl, rfl⟩, by simp, by decide, by decide⟩

theorem test_witness_StepKeepsTheInvariant :
    Inv (withInputs y10 [.rxByte 7]) ∧ step (withInputs y10 [.rxByte 7]) = .next end10 := ⟨inv_y10.putInputs _, rfl⟩

theorem test_witness_NoByteStreamStopsTheReceiver : Inv off10 ∧ Inv start10 ∧ Inv end10 :=
  ⟨inv_off10, inv_start10, inv_end10⟩

theorem test_witness_StopsAreTheListedRefusals :
    (Inv (withInputs off10 [.pBound]) ∧ step (withInputs off10 [.pBound]) = .refused .timerNotConfigured) ∧
    (Inv (withInputs start10 [.regWr 0x00001]) ∧
      step (withInputs start10 [.regWr 0x00001]) = .refused .periodAtRuntime) ∧
    (Inv (withInputs ready10 [.build 1000 2000 10]) ∧
      step (withInputs ready10 [.build 1000 2000 10]) = .refused .buildTwice) :=
  ⟨⟨inv_off10.putInputs _, rfl⟩, ⟨inv_start10.putInputs _, rfl⟩, inv_ready10.putInputs _, rfl⟩

theorem test_witness_ComparePairComesFromOneFrame :
    Inv (withInputs end10 [.rxByte 0x18]) ∧ (withInputs end10 [.rxByte 0x18]).rxEn = true ∧
      .reset ∉ (withInputs end10 [.rxByte 0x18]).inputs ∧
      runFor 1 (withInputs end10 [.rxByte 0x18]) = .next { end10 with
        cmd := ⟨.written 2, .written 3, .written 7, .written 0x18⟩, chX := .written 1800, chY := .written 1400
        state := .awaitingStart } := ⟨inv_end10.putInputs _, rfl, by decide, rfl⟩

/-- The frames that the pair may come from: a commit of `cmd[2] = 7`, `cmd[1] = 3`, and a `MOVE 200, 10`. -/
theorem test_witness_CommitsFrame :
    CommitsFrame (withInputs end10 [.rxByte 0x18]) 3 7 ∧ CommitsFrame (withInputs start10 [.frame4 0x02C80A18]) 9 9 :=
  ⟨.inl ⟨_, rfl, rfl, rfl⟩, .inr ⟨200, 10, _, rfl, rfl, rfl⟩⟩

theorem test_witness_ActivePairIsNeverMixed :
    (Inv (withInputs end10 [.rxByte 0x18, .pBound]) ∧ (withInputs end10 [.rxByte 0x18, .pBound]).rxEn = true ∧
      .reset ∉ (withInputs end10 [.rxByte 0x18, .pBound]).inputs ∧
      runFor 2 (withInputs end10 [.rxByte 0x18, .pBound]) = .next { end10 with
        cmd := ⟨.written 2, .written 3, .written 7, .written 0x18⟩, chX := .written 1800, chY := .written 1400
        actX := .written 1800, actY := .written 1400, state := .awaitingStart }) ∧
    runFor 2 (withInputs off10 [.initPwm 20000 1500 1600, .regWr 0x10708]) = .next { off10 with
      period := .written 20000, chX := .written 1800, chY := .written 1600
      actX := .written 1500, actY := .written 1600 } := ⟨⟨inv_end10.putInputs _, rfl, by decide, rfl⟩, rfl⟩

end Sys2Proof.Tests
end

namespace Sys2Proof.Machine

/-! ### No received byte stops the block (R7, R105) -/

/-- Under the invariant a commit in `AwaitingEnd` completes: both index registers are held, and the entries they select are written
(R97, R104, R105). -/
theorem Inv.execRxEndCommit_completes {s : State} (h : Inv s) (hr : s.rxEn = true) (hs : s.state = .awaitingEnd) :
    ∃ x y vx vy, s.cmd.c1 = .written x ∧ s.cmd.c2 = .written y ∧ s.table.read y.toNat = .written vx ∧
      s.table.read x.toNat = .written vy ∧
      execRxEndCommit s = .next ((((s.putCmd3 endMarker).putState .awaitingStart).putChX vx).putChY vy) := by
  obtain ⟨x, hx, hxm⟩ := h.indexXHeld (.inr hs)
  obtain ⟨y, hy, hym⟩ := h.indexYHeld hs
  have hxs := lt_steps_of_le_maxIndex hxm
  have hys := lt_steps_of_le_maxIndex hym
  obtain ⟨vx, hvx⟩ := h.read_written hr hys
  obtain ⟨vy, hvy⟩ := h.read_written hr hxs
  have hsel : decodeByte s.rxEn s.state endMarker = .rxEndCommit := by rw [hr, hs]; rfl
  exact ⟨x, y, vx, vy, hx, hy, hvx, hvy, execRxEndCommit_of hsel hx hy hxs.le hys.le hvx hvy⟩

/-- Under the invariant every byte answers a next state, in each of the seven contexts of R55; only the commit needs the invariant. -/
theorem Inv.rxByte_completes {s : State} (h : Inv s) (b : Byte) : ∃ t, rxByte b s = .next t := by
  cases hr : s.rxEn with
  | false => exact ⟨_, rxByte_off hr b⟩
  | true =>
    cases hs : s.state with
    | awaitingStart =>
      by_cases hb : b = startMarker
      · exact ⟨_, hb ▸ rxByte_start_hit hr hs⟩
      · exact ⟨_, rxByte_start_miss hr hs hb⟩
    | awaitingX => exact ⟨_, rxByte_x hr hs b⟩
    | awaitingY => exact ⟨_, rxByte_y hr hs b⟩
    | awaitingEnd =>
      by_cases hb : b = endMarker
      · obtain ⟨x, y, vx, vy, -, -, -, -, hc⟩ := h.execRxEndCommit_completes hr hs
        exact ⟨_, hb ▸ (rxByte_end_commit hr hs).trans hc⟩
      · exact ⟨_, rxByte_end_discard hr hs hb⟩

/-- Settles O4: the one operation is the decode of the byte, and the byte's step completes under the invariant. -/
theorem everyByteHasExactlyOneOperation : Obligations.EveryByteHasExactlyOneOperation := by
  intro s b
  refine ⟨⟨decodeByte s.rxEn s.state b, decodeByte_sound s.rxEn s.state b, ?_⟩, ?_⟩
  · rintro j ⟨hr, hw, hs, he⟩
    exact (decodeByte_of_selected hr hw hs he).symm
  · intro h rest hi
    rw [step_of_rxByte hi]
    exact (h.putInputs rest).rxByte_completes b

end Sys2Proof.Machine

namespace Sys2Proof

/-! ### The serial bits of a byte (R32) -/

/-- Each serial bit that arrives moves the bits before it up by one place and takes place 0: the byte is the bits, each
`concat`ed to what came before it. -/
theorem byteOfSerial_eq_concat (s0 s1 s2 s3 s4 s5 s6 s7 : Bool) :
    byteOfSerial s0 s1 s2 s3 s4 s5 s6 s7 =
      (((((((BitVec.ofBool s0).concat s1).concat s2).concat s3).concat s4).concat s5).concat s6).concat s7 := rfl

/-- Settles O6: `s7` stands in place 0, and place `i + 1` holds what stood in place `i` before the last bit arrived. -/
theorem serialBitsArriveMostSignificantFirst : Obligations.SerialBitsArriveMostSignificantFirst := by
  intro s0 s1 s2 s3 s4 s5 s6 s7
  simp only [byteOfSerial_eq_concat, BitVec.getLsbD_concat_succ, BitVec.getLsbD_concat_zero, BitVec.getLsbD_ofBool,
    decide_true, Bool.true_and, and_self]

end Sys2Proof

namespace Sys2Proof

/-! ### The byte decode table (R55) -/

/-- A byte event always decodes, and to the operation of the byte decode table. -/
theorem decode_rxByte (en : Bool) (st : RxState) (b : Byte) : decode en st (.rxByte b) = .ok (decodeByte en st b) := rfl

/-- Settles O3, row by row: the two marker states test the byte against their marker, the other contexts look at no byte. -/
theorem byteSelectsItsOperation : Obligations.ByteSelectsItsOperation := by
  intro b
  simp only [decode_rxByte, Except.ok.injEq]
  refine ⟨fun st => ?off, fun hb => ?startHit, fun hb => ?startMiss, ?x, ?y, fun hb => ?endCommit, fun hb => ?endDiscard⟩
  case off => exact decodeByte_off st b
  case startHit => exact (decodeByte_awaitingStart b).trans (if_pos hb)
  case startMiss => exact (decodeByte_awaitingStart b).trans (if_neg hb)
  case x => exact decodeByte_awaitingX b
  case y => exact decodeByte_awaitingY b
  case endCommit => exact (decodeByte_awaitingEnd b).trans (if_pos hb)
  case endDiscard => exact (decodeByte_awaitingEnd b).trans (if_neg hb)

end Sys2Proof

namespace Sys2Proof

/-- An event decodes to no operation but the one it encodes (R50 to R55). -/
theorem encode_of_decode {en : Bool} {st : RxState} {e : Event} {i : Instr} (hd : decode en st e = .ok i) :
    encode i = e := by
  cases e with
  | rxByte b =>
    obtain ⟨-, -, -, he⟩ := decodeByte_sound en st b
    cases hd
    exact he
  | frame4 w =>
    obtain ⟨-, -, hstart, hend, rfl⟩ := decodeFrame_ok hd
    rw [encode, ← hstart, ← hend, frameWord_fields]
  | regWr w =>
    have hw : decodeRegWr w = .ok i := hd
    rcases decodeRegWr_cases w with ⟨hsel, h⟩ | ⟨hsel, h⟩ | ⟨hsel, h⟩ | ⟨-, h⟩ <;> rw [h] at hw <;> cases hw
    all_goals rw [encode, ← hsel, regWrWord_fields]
  | _ => cases hd; rfl

end Sys2Proof

namespace Sys2Proof.Machine

/-! ### Nothing but a byte, a frame or a reset touches the receiver (R103) -/

/-- An operation that no byte, no frame and no `RESET` carries leaves `state` and `cmd` as they are. -/
theorem exec_keeps_receiver {i : Instr} {s t : State} (h : exec i s = .next t) (hbyte : ∀ b, encode i ≠ .rxByte b)
    (hframe : ∀ w, encode i ≠ .frame4 w) (hreset : encode i ≠ .reset) : t.state = s.state ∧ t.cmd = s.cmd := by
  cases i with
  | build mn mx steps => obtain ⟨-, -, -, -, rfl⟩ := execBuild_next h; exact ⟨rfl, rfl⟩
  | setPeriod v => obtain ⟨-, rfl⟩ := execSetPeriod_next h; exact ⟨rfl, rfl⟩
  | setChX v => obtain ⟨-, rfl⟩ := execSetChX_next h; exact ⟨rfl, rfl⟩
  | setChY v => obtain ⟨-, rfl⟩ := execSetChY_next h; exact ⟨rfl, rfl⟩
  | pBound => obtain ⟨_, _, _, -, -, -, rfl⟩ := execPBound_next h; exact ⟨rfl, rfl⟩
  | initPwm p dx dy => obtain ⟨-, rfl⟩ := execInitPwm_next h; exact ⟨rfl, rfl⟩
  | rxEnable => obtain ⟨-, rfl⟩ := execRxEnable_next h; exact ⟨rfl, rfl⟩
  | idle => cases h; exact ⟨rfl, rfl⟩
  | move x y => exact absurd rfl (hframe _)
  | reset => exact absurd rfl hreset
  | _ => exact absurd rfl (hbyte _)

theorem step_keeps_receiver {s t : State} {e : Event} {rest : List Event} (hi : s.inputs = e :: rest)
    (h : step s = .next t) (hbyte : ∀ b, e ≠ .rxByte b) (hframe : ∀ w, e ≠ .frame4 w) (hreset : e ≠ .reset) :
    t.state = s.state ∧ t.cmd = s.cmd := by
  rcases step_cases s with ⟨hnil, -⟩ | ⟨e', rest', i, hi', hd, hs⟩ | ⟨w, rest', hi', -⟩ | ⟨w, rest', -, hs⟩
  · cases hi.symm.trans hnil
  · cases hi.symm.trans hi'
    have he : encode i = e := encode_of_decode hd
    exact exec_keeps_receiver (s := s.putInputs rest) (hs.symm.trans h) (he ▸ hbyte) (he ▸ hframe) (he ▸ hreset)
  · cases hi.symm.trans hi'
    exact absurd rfl (hframe w)
  · cases hs.symm.trans h

/-- Where the timer is configured, any number of `PBOUND` and `IDLE` complete and leave `state` and `cmd` as they are: a boundary
writes the active pair alone, so the timer stays configured for the next one. -/
theorem deliver_boundaries_keeps_receiver {s : State} {p x y : Word} {es : List Event} (hp : s.period = .written p)
    (hx : s.chX = .written x) (hy : s.chY = .written y) (hes : ∀ e ∈ es, e = .pBound ∨ e = .idle) :
    ∃ t, deliver es s = .next t ∧ t.state = s.state ∧ t.cmd = s.cmd := by
  induction es generalizing s with
  | nil => exact ⟨s, rfl, rfl, rfl⟩
  | cons e es ih =>
    obtain ⟨rfl | rfl, htail⟩ := List.forall_mem_cons.1 hes
    · have hb : exec .pBound s = .next ((s.putActX x).putActY y) := execPBound_of hp hx hy
      rw [deliver_cons es (i := .pBound) rfl, hb, andThen_next]
      exact ih (s := (s.putActX x).putActY y) hp hx hy htail
    · rw [deliver_cons es (i := .idle) rfl]
      exact ih hp hx hy htail

/-- Settles O47: boundaries and idling by induction on their number, one step by the operation its event carries. -/
theorem noTimeoutOnAPartialFrame : Obligations.NoTimeoutOnAPartialFrame :=
  ⟨fun _ _ _ _ _ => deliver_boundaries_keeps_receiver, fun _ _ _ _ => step_keeps_receiver⟩

/-! ### A byte where a start is awaited (R93, R94) -/

/-- Settles O27: the start marker is selected as `RX.START.HIT`, which then does its two writes. -/
theorem startMarkerBeginsAFrame : Obligations.StartMarkerBeginsAFrame := by
  intro s hr hs
  have hd : decodeByte s.rxEn s.state startMarker = .rxStartHit := by rw [hr, hs, decodeByte_awaitingStart, if_pos rfl]
  exact ⟨congrArg Except.ok hd, whenSelected_of hd⟩

@[simp] theorem putState_self (s : State) : s.putState s.state = s := rfl

/-- Settles O28: any other byte is selected as `RX.START.MISS`, whose write of `state` is the value already there. -/
theorem otherByteKeepsAwaitingStart : Obligations.OtherByteKeepsAwaitingStart := by
  intro s b hr hs (hb : b ≠ startMarker)
  have hd : decodeByte s.rxEn s.state b = .rxStartMiss b := by rw [hr, hs, decodeByte_awaitingStart, if_neg hb]
  have hx : exec (.rxStartMiss b) s = .next ((s.putCmd0 b).putState .awaitingStart) := whenSelected_of hd
  have hkeep : (s.putCmd0 b).putState .awaitingStart = s.putCmd0 b := by
    rw [← hs, ← putCmd0_state s b, putState_self]
  exact ⟨congrArg Except.ok hd, hx.trans (congrArg _ hkeep)⟩

/-! ### A start marker inside a frame (R101) -/

/-- Settles O36: the step runs the operation R55 selects for the byte, which inside a frame is not `RX.START.HIT`. -/
theorem noResynchronisationInsideAFrame : Obligations.NoResynchronisationInsideAFrame := by
  intro s rest hr hi
  have hstep : ∀ i, decodeByte s.rxEn s.state 0x02 = i → step s = exec i (s.putInputs rest) :=
    fun i hd => step_of_decode hi (congrArg Except.ok hd)
  refine ⟨fun hs => hstep _ ?x, fun hs => hstep _ ?y, fun hs => hstep _ ?discard⟩
  case x => rw [hr, hs, decodeByte_awaitingX]
  case y => rw [hr, hs, decodeByte_awaitingY]
  case discard => rw [hr, hs, decodeByte_awaitingEnd, if_neg (by decide)]

end Sys2Proof.Machine

namespace Sys2Proof.Machine

/-! ### The idle loop (R111) -/

@[simp] theorem exec_idle (s : State) : exec .idle s = .next s := rfl

/-- What arrives after an `IDLE` is delivered to the very state the `IDLE` found. -/
theorem deliver_idle_cons (es : List Event) (s : State) : deliver (.idle :: es) s = deliver es s := by
  have hd : decode s.rxEn s.state .idle = .ok .idle := rfl
  rw [deliver_cons es hd, exec_idle, andThen_next]

/-- Settles O44: `IDLE` completes in the state it finds, and a delivery after it starts from there. -/
theorem idleChangesNothing : Obligations.IdleChangesNothing :=
  fun s => ⟨exec_idle s, fun es => deliver_idle_cons es s⟩

end Sys2Proof.Machine

namespace Sys2Proof.Machine

/-! ### The receiver comes back to `AwaitingStart` (R125) -/

theorem exec_rxEndCommit_state {s t : State} (h : exec .rxEndCommit s = .next t) : t.state = .awaitingStart := by
  obtain ⟨-, _, _, _, _, -, -, -, -, -, -, rfl⟩ := execRxEndCommit_next h
  rfl

theorem exec_rxEndDiscard_state {s t : State} {b : Byte} (h : exec (.rxEndDiscard b) s = .next t) :
    t.state = .awaitingStart := by
  obtain ⟨-, rfl⟩ := execRxEndDiscard_next h
  rfl

/-- Inside a frame the receiver is on (R110). -/
theorem Inv.rxEn_of_state_ne {s : State} (h : Inv s) (hs : s.state ≠ .awaitingStart) : s.rxEn = true := by
  by_contra hr
  exact hs (h.idleBeforeEnable (by simpa using hr)).1

/-- Storing the X index keeps the invariant: the stored byte is clamped (R95, R104). -/
theorem Inv.storeX {s : State} (h : Inv s) (hs : s.state = .awaitingX) (b : Byte) :
    Inv ((s.putCmd1 (clamp s.cfg b)).putState .awaitingY) where
  tableOrdered := h.tableOrdered
  tableBounded := h.tableBounded
  tableWhole := h.tableWhole
  idleBeforeEnable hr := absurd ((h.rxEn_of_state_ne (by simp [hs])).symm.trans hr) (by decide)
  initialisedAfterEnable := h.initialisedAfterEnable
  markerHeld _ := h.markerHeld (by simp [hs])
  indexXHeld _ := ⟨_, rfl, clamp_le_maxIndex s.cfg b⟩
  indexYHeld := nofun

/-- Storing the Y index keeps the invariant: the stored byte is clamped, and the X index is still held (R96, R104). -/
theorem Inv.storeY {s : State} (h : Inv s) (hs : s.state = .awaitingY) (b : Byte) :
    Inv ((s.putCmd2 (clamp s.cfg b)).putState .awaitingEnd) where
  tableOrdered := h.tableOrdered
  tableBounded := h.tableBounded
  tableWhole := h.tableWhole
  idleBeforeEnable hr := absurd ((h.rxEn_of_state_ne (by simp [hs])).symm.trans hr) (by decide)
  initialisedAfterEnable := h.initialisedAfterEnable
  markerHeld _ := h.markerHeld (by simp [hs])
  indexXHeld _ := h.indexXHeld (.inl hs)
  indexYHeld _ := ⟨_, rfl, clamp_le_maxIndex s.cfg b⟩

/-- In `AwaitingEnd` one byte ends the frame, by a commit or a discard (R97, R98). -/
theorem Inv.receive_awaitingEnd {s : State} (h : Inv s) (hs : s.state = .awaitingEnd) (b : Byte) :
    ∃ t, receive [b] s = .next t ∧ t.state = .awaitingStart := by
  obtain ⟨t, ht⟩ := h.rxByte_completes b
  refine ⟨t, by rw [receive_cons, ht, andThen_next, receive_nil], ?_⟩
  rw [rxByte_eq_exec, h.rxEn_of_state_ne (by simp [hs]), hs, decodeByte_awaitingEnd] at ht
  split at ht
  · exact exec_rxEndCommit_state ht
  · exact exec_rxEndDiscard_state ht

/-- In `AwaitingY` two bytes end the frame. -/
theorem Inv.receive_awaitingY {s : State} (h : Inv s) (hs : s.state = .awaitingY) (b0 b1 : Byte) :
    ∃ t, receive [b0, b1] s = .next t ∧ t.state = .awaitingStart := by
  rw [receive_cons, rxByte_y (h.rxEn_of_state_ne (by simp [hs])) hs, andThen_next]
  exact (h.storeY hs b0).receive_awaitingEnd rfl b1

/-- In `AwaitingX` three bytes end the frame. -/
theorem Inv.receive_awaitingX {s : State} (h : Inv s) (hs : s.state = .awaitingX) (b0 b1 b2 : Byte) :
    ∃ t, receive [b0, b1, b2] s = .next t ∧ t.state = .awaitingStart := by
  rw [receive_cons, rxByte_x (h.rxEn_of_state_ne (by simp [hs])) hs, andThen_next]
  exact (h.storeX hs b0).receive_awaitingY rfl b1 b2

/-- Settles O41: how many bytes it takes is read off the state, none in `AwaitingStart` and one more for each byte of the frame still
to come. -/
theorem receiverReturnsWithinThreeBytes : Obligations.ReceiverReturnsWithinThreeBytes := by
  refine ⟨fun _ _ => exec_rxEndCommit_state, fun _ _ _ => exec_rxEndDiscard_state, fun s b0 b1 b2 h => ?_⟩
  cases hs : s.state with
  | awaitingStart => exact ⟨0, s, by decide, rfl, hs⟩
  | awaitingX => exact ⟨3, (h.receive_awaitingX hs b0 b1 b2).imp fun _ ht => ⟨le_rfl, ht⟩⟩
  | awaitingY => exact ⟨2, (h.receive_awaitingY hs b0 b1).imp fun _ ht => ⟨by decide, ht⟩⟩
  | awaitingEnd => exact ⟨1, (h.receive_awaitingEnd hs b0).imp fun _ ht => ⟨by decide, ht⟩⟩

end Sys2Proof.Machine

namespace Sys2Proof

/-! ### Encoding and decoding are inverse (R50 to R55) -/

/-- The operations of the BYTE format are carried by a byte. -/
theorem encode_of_isRx {i : Instr} (hr : i.isRx = true) : ∃ b, encode i = .rxByte b := by
  cases i with
  | rxOff | rxStartHit | rxStartMiss | rxX | rxY | rxEndCommit | rxEndDiscard => exact ⟨_, rfl⟩
  | _ => cases hr

theorem decodeFrame_markers (x y : Byte) :
    decodeFrame true .awaitingStart (frameWord Machine.startMarker x y Machine.endMarker) = .ok (.move x y) := by
  simp [decodeFrame]

/-- An operation that its context can select is what its encoding decodes to there. -/
theorem decode_encode {en : Bool} {st : RxState} {i : Instr} (hw : i.wf = true) (hs : i.selectedIn en st = true) :
    decode en st (encode i) = .ok i := by
  cases hr : i.isRx with
  | true =>
    obtain ⟨b, hb⟩ := encode_of_isRx hr
    rw [hb, decode_rxByte, decodeByte_of_selected hr hw hs hb]
  | false =>
    cases i with
    | setPeriod v => simp [encode, decode, decodeRegWr]
    | setChX v => simp [encode, decode, decodeRegWr]
    | setChY v => simp [encode, decode, decodeRegWr]
    | move x y =>
      obtain ⟨rfl, rfl⟩ : en = true ∧ st = .awaitingStart := by simpa [Instr.selectedIn] using hs
      exact decodeFrame_markers x y
    | build | initPwm | pBound | rxEnable | idle | reset => rfl
    | _ => cases hr

/-- Settles O1: a byte operation by R55, a frame and a register write by their fields, an event as itself. -/
theorem decodeOfEncode : Obligations.DecodeOfEncode := fun _ _ _ => decode_encode

/-- What an event decodes to is well-formed and can be selected in the context it was decoded in. -/
theorem selected_of_decode {en : Bool} {st : RxState} {e : Event} {i : Instr} (hd : decode en st e = .ok i) :
    i.wf = true ∧ i.selectedIn en st = true := by
  cases e with
  | rxByte b =>
    obtain ⟨-, hw, hs, -⟩ := decodeByte_sound en st b
    cases hd
    exact ⟨hw, hs⟩
  | frame4 w =>
    obtain ⟨rfl, rfl, -, -, rfl⟩ := decodeFrame_ok hd
    exact ⟨rfl, rfl⟩
  | regWr w =>
    have hw : decodeRegWr w = .ok i := hd
    rcases decodeRegWr_cases w with ⟨-, h⟩ | ⟨-, h⟩ | ⟨-, h⟩ | ⟨-, h⟩ <;> rw [h] at hw <;> cases hw
    all_goals exact ⟨rfl, rfl⟩
  | _ => cases hd; exact ⟨rfl, rfl⟩

/-- Settles O2: the event is the encoding, and decoding chose the operation by its context. -/
theorem encodeOfDecode : Obligations.EncodeOfDecode :=
  fun _ _ _ _ hd => ⟨encode_of_decode hd, selected_of_decode hd⟩

/-! ### The pattern of a frame word (R51) -/

/-- The mask test of the `MOVE` row looks at the two marker fields and nothing else. -/
theorem frameWord_mask_iff (w : FrameWord) :
    w &&& 0xFF0000FF#32 = 0x02000018#32 ↔ frameStart w = Machine.startMarker ∧ frameEnd w = Machine.endMarker := by
  constructor
  · intro h
    have hstart : frameStart (w &&& 0xFF0000FF#32) = frameStart w :=
      (BitVec.extractLsb'_and ..).trans (BitVec.and_allOnes (w := 8))
    have hend : frameEnd (w &&& 0xFF0000FF#32) = frameEnd w :=
      (BitVec.extractLsb'_and ..).trans (BitVec.and_allOnes (w := 8))
    rw [← hstart, ← hend, h]
    decide
  · rintro ⟨hstart, hend⟩
    rw [← frameWord_fields w, hstart, hend]
    exact Laws.frameWord_mask _ _

/-- Settles O5: the mask test is the marker test of the decoder, and a word is its four fields. -/
theorem frameWordMatchesItsPattern : Obligations.FrameWordMatchesItsPattern := by
  intro w
  rw [ne_eq, frameWord_mask_iff]
  refine ⟨fun h => ?unit, fun h => ?bytes, (frameWord_fields w).symm⟩
  case unit => exact if_pos ⟨rfl, rfl, h⟩
  case bytes => exact if_neg fun hc => h hc.2.2

/-- Settles O7, on closed words. -/
theorem sampleWordsDecode : Obligations.SampleWordsDecode := by
  unfold Obligations.SampleWordsDecode
  decide

end Sys2Proof

namespace Sys2Proof.Machine

/-! ### What a step runs (R50 to R60, R88) -/

/-- Settles O8: the reserved select code is the one register write that does not decode. -/
theorem reservedSelectIsRefused : Obligations.ReservedSelectIsRefused := by
  intro s w rest (hsel : regWrSel w = 3#2) hi
  refine step_of_reserved hi ?_
  rcases decodeRegWr_cases w with ⟨h, -⟩ | ⟨h, -⟩ | ⟨h, -⟩ | ⟨-, h⟩
  · cases hsel.symm.trans h
  · cases hsel.symm.trans h
  · cases hsel.symm.trans h
  · exact h

/-- Settles O9: the cases of a step, by what the next event decodes to. -/
theorem stepRunsTheDecodedOperation : Obligations.StepRunsTheDecodedOperation := by
  intro s
  refine ⟨step_of_nil, fun e rest hi => ⟨fun i => step_of_decode hi, ?_, step_of_reserved hi⟩⟩
  rintro w rfl
  exact step_of_frame hi

/-- An event that `tableContext` reads under no context decodes to the same in all of them. -/
theorem decode_of_tableContext_none {e : Event} (h : tableContext e = none) (en en' : Bool) (st st' : RxState) :
    decode en st e = decode en' st' e := by
  cases e with
  | rxByte b =>
    simp only [tableContext] at h
    split at h
    · cases h
    · split at h <;> cases h
  | frame4 w => cases h
  | _ => rfl

/-- A table word that is read as an operation is an event that decodes to it, in the context the table has for it or, where it has
none, in every context. -/
theorem decodeTableWord_some {nbits w : Nat} {i : Instr} (h : decodeTableWord nbits w = some i) :
    ∃ e, tableEvent nbits w = some e ∧
      ((∃ en st, tableContext e = some (en, st) ∧ decode en st e = .ok i) ∨
        tableContext e = none ∧ ∀ en st, decode en st e = .ok i) := by
  unfold decodeTableWord at h
  split at h
  · cases h
  · next e he =>
    refine ⟨e, he, ?_⟩
    split at h
    · next j hd =>
      cases h
      split at hd
      · next en st hc => exact .inl ⟨en, st, hc, hd⟩
      · next hc => exact .inr ⟨hc, fun en st => (decode_of_tableContext_none hc _ _ _ _).trans hd⟩
    · cases h

/-- Settles O10: the context is the table's own where the word needs one, and that of the state where it does not. -/
theorem fetchWordRunsItsOperation : Obligations.FetchWordRunsItsOperation := by
  intro s nbits w i h
  obtain ⟨e, he, ⟨en, st, hc, hd⟩ | ⟨hc, hd⟩⟩ := decodeTableWord_some h
  · have hs : s.withFetchWord nbits w = ((s.putRxEn en).putState st).putInputs (e :: s.inputs) := by
      simp [State.withFetchWord, he, hc]
    exact ⟨en, st, (selected_of_decode hd).2, hs ▸ step_of_decode rfl hd⟩
  · have hs : s.withFetchWord nbits w = s.putInputs (e :: s.inputs) := by
      simp [State.withFetchWord, he, hc]
    exact ⟨s.rxEn, s.state, (selected_of_decode (hd _ _)).2, hs ▸ step_of_decode rfl (hd _ _)⟩

/-- Settles O11: a delivery of bytes takes them one at a time. -/
theorem bytesAreProcessedOneByOneInOrder : Obligations.BytesAreProcessedOneByOneInOrder := by
  intro s b bs
  rw [receive_cons, rxByte_eq_exec]

/-! ### Reset and configuration (R6, R21, R150) -/

/-- Settles O12: the fields of the reset state. -/
theorem resetStateValues : Obligations.ResetStateValues :=
  ⟨rfl, rfl, rfl, rfl, rfl, rfl, Memory.read_nil, rfl, rfl, rfl, rfl, rfl, rfl⟩

/-- Settles O13: `RESET` leaves the reset state of the configuration, with the events still to come. -/
theorem resetRewritesEveryRegister : Obligations.ResetRewritesEveryRegister := fun _ => rfl

/-- Settles O14: the test that builds a configuration is the conjunction of its constraints. -/
theorem configurationIsBuiltWithinItsConstraints : Obligations.ConfigurationIsBuiltWithinItsConstraints := by
  intro steps mn mx p dx dy
  refine ⟨fun hs hm => ⟨_, dif_pos ⟨hs, hm⟩, rfl, rfl, rfl, rfl, rfl, rfl⟩, fun h => dif_neg h⟩

end Sys2Proof.Machine

namespace Sys2Proof.Machine

/-! ### What an operation can do, said once

One case for each operation of R50: when it completes, and the state it leaves. Every invariant below is a case analysis on it. -/

/-- `Completes i s t`: the operation `i` completes in `s` and leaves `t`. -/
inductive Completes (s : State) : Instr → State → Prop
  | build {mn mx steps : Word} (hm : mn.toNat < mx.toNat) (hs : steps = s.cfg.steps) (hr : s.rxEn = false)
      (ht : s.table.read 0 = .unwritten) : Completes s (.build mn mx steps) (s.putTable (buildTable s.table mn mx steps))
  | setPeriod {v : Word} (hr : s.rxEn = false) : Completes s (.setPeriod v) (s.putPeriod v)
  | setChX {v : Word} (hr : s.rxEn = false) : Completes s (.setChX v) (s.putChX v)
  | setChY {v : Word} (hr : s.rxEn = false) : Completes s (.setChY v) (s.putChY v)
  | pBound {x y : Word} (hx : s.chX = .written x) (hy : s.chY = .written y) :
      Completes s .pBound ((s.putActX x).putActY y)
  | initPwm {p dx dy : Word} (hr : s.rxEn = false) :
      Completes s (.initPwm p dx dy) (((((s.putPeriod p).putChX dx).putChY dy).putActX dx).putActY dy)
  | rxOff {b : Byte} : Completes s (.rxOff b) s
  | rxStartHit (hr : s.rxEn = true) (hs : s.state = .awaitingStart) :
      Completes s .rxStartHit ((s.putCmd0 startMarker).putState .awaitingX)
  | rxStartMiss {b : Byte} (hr : s.rxEn = true) (hs : s.state = .awaitingStart) :
      Completes s (.rxStartMiss b) ((s.putCmd0 b).putState .awaitingStart)
  | rxX {b : Byte} (hr : s.rxEn = true) (hs : s.state = .awaitingX) :
      Completes s (.rxX b) ((s.putCmd1 (clamp s.cfg b)).putState .awaitingY)
  | rxY {b : Byte} (hr : s.rxEn = true) (hs : s.state = .awaitingY) :
      Completes s (.rxY b) ((s.putCmd2 (clamp s.cfg b)).putState .awaitingEnd)
  | rxEndCommit {x y : Byte} {vx vy : Word} (hr : s.rxEn = true) (hs : s.state = .awaitingEnd)
      (hx : s.cmd.c1 = .written x) (hy : s.cmd.c2 = .written y) (hvx : s.table.read y.toNat = .written vx)
      (hvy : s.table.read x.toNat = .written vy) :
      Completes s .rxEndCommit ((((s.putCmd3 endMarker).putState .awaitingStart).putChX vx).putChY vy)
  | rxEndDiscard {b : Byte} (hr : s.rxEn = true) (hs : s.state = .awaitingEnd) :
      Completes s (.rxEndDiscard b) ((s.putCmd3 b).putState .awaitingStart)
  | move {x y : Byte} {t : State} (h : execMove x y s = .next t) : Completes s (.move x y) t
  | rxEnable (hi : s.initialised = true) : Completes s .rxEnable (s.putRxEn true)
  | idle : Completes s .idle s
  | reset : Completes s .reset ((State.resetWith s.cfg).putInputs s.inputs)

/-- The context that selects the operation a byte decodes to. -/
theorem selectedIn_of_decodeByte {en : Bool} {st : RxState} {b : Byte} {i : Instr} (hd : decodeByte en st b = i) :
    i.selectedIn en st = true :=
  hd ▸ (decodeByte_sound en st b).2.2.1

/-- An operation selected in one value of `state` alone was selected there, with the receiver on. -/
theorem context_of_selected {en : Bool} {st st' : RxState} (h : (en && st == st') = true) : en = true ∧ st = st' := by
  simpa using h

theorem completes_of_exec {i : Instr} {s t : State} (h : exec i s = .next t) : Completes s i t := by
  cases i with
  | build mn mx steps => obtain ⟨hm, hs, hr, ht, rfl⟩ := execBuild_next h; exact .build hm hs hr ht
  | setPeriod v => obtain ⟨hr, rfl⟩ := execSetPeriod_next h; exact .setPeriod hr
  | setChX v => obtain ⟨hr, rfl⟩ := execSetChX_next h; exact .setChX hr
  | setChY v => obtain ⟨hr, rfl⟩ := execSetChY_next h; exact .setChY hr
  | pBound => obtain ⟨_, x, y, -, hx, hy, rfl⟩ := execPBound_next h; exact .pBound hx hy
  | initPwm p dx dy => obtain ⟨hr, rfl⟩ := execInitPwm_next h; exact .initPwm hr
  | rxOff b => obtain ⟨-, rfl⟩ := execRxOff_next h; exact .rxOff
  | rxStartHit =>
    obtain ⟨hd, rfl⟩ := execRxStartHit_next h
    obtain ⟨hr, hs⟩ := context_of_selected (selectedIn_of_decodeByte hd)
    exact .rxStartHit hr hs
  | rxStartMiss b =>
    obtain ⟨hd, rfl⟩ := execRxStartMiss_next h
    obtain ⟨hr, hs⟩ := context_of_selected (selectedIn_of_decodeByte hd)
    exact .rxStartMiss hr hs
  | rxX b =>
    obtain ⟨hd, rfl⟩ := execRxX_next h
    obtain ⟨hr, hs⟩ := context_of_selected (selectedIn_of_decodeByte hd)
    exact .rxX hr hs
  | rxY b =>
    obtain ⟨hd, rfl⟩ := execRxY_next h
    obtain ⟨hr, hs⟩ := context_of_selected (selectedIn_of_decodeByte hd)
    exact .rxY hr hs
  | rxEndCommit =>
    obtain ⟨hd, x, y, vx, vy, hx, hy, -, -, hvx, hvy, rfl⟩ := execRxEndCommit_next h
    obtain ⟨hr, hs⟩ := context_of_selected (selectedIn_of_decodeByte hd)
    exact .rxEndCommit hr hs hx hy hvx hvy
  | rxEndDiscard b =>
    obtain ⟨hd, rfl⟩ := execRxEndDiscard_next h
    obtain ⟨hr, hs⟩ := context_of_selected (selectedIn_of_decodeByte hd)
    exact .rxEndDiscard hr hs
  | move x y => exact .move h
  | rxEnable => obtain ⟨hi, rfl⟩ := execRxEnable_next h; exact .rxEnable hi
  | idle => cases h; exact .idle
  | reset => cases execReset_next h; exact .reset

/-- The operation of a received byte is one of the BYTE format, and never `MOVE`. -/
theorem decodeByte_ne_move (en : Bool) (st : RxState) (b x y : Byte) : decodeByte en st b ≠ .move x y := by
  intro h
  have hr := (decodeByte_sound en st b).1
  rw [h] at hr
  cases hr

/-! ### The registers an operation writes (R11, R25) -/

/-- What each operation but `RESET` leaves unchanged, register by register. -/
structure WritesOnlyItsOwn (i : Instr) (s t : State) : Prop where
  cfg : t.cfg = s.cfg
  rxEn : t.rxEn = s.rxEn ∨ i = .rxEnable
  state : t.state = s.state ∨ i.isRx = true ∧ (∀ b, i ≠ .rxOff b) ∨ ∃ x y, i = .move x y
  cmd0 : t.cmd.c0 = s.cmd.c0 ∨ i = .rxStartHit ∨ (∃ b, i = .rxStartMiss b) ∨ ∃ x y, i = .move x y
  cmd1 : t.cmd.c1 = s.cmd.c1 ∨ (∃ b, i = .rxX b) ∨ ∃ x y, i = .move x y
  cmd2 : t.cmd.c2 = s.cmd.c2 ∨ (∃ b, i = .rxY b) ∨ ∃ x y, i = .move x y
  cmd3 : t.cmd.c3 = s.cmd.c3 ∨ i = .rxEndCommit ∨ (∃ b, i = .rxEndDiscard b) ∨ ∃ x y, i = .move x y
  table : t.table = s.table ∨ ∃ mn mx steps, i = .build mn mx steps ∧ s.rxEn = false ∧ s.table.read 0 = .unwritten ∧
    t.table = buildTable s.table mn mx steps
  period : t.period = s.period ∨ (∃ v, i = .setPeriod v) ∨ ∃ p dx dy, i = .initPwm p dx dy
  chX : t.chX = s.chX ∨ (∃ v, i = .setChX v) ∨ i = .rxEndCommit ∨ (∃ x y, i = .move x y) ∨ ∃ p dx dy, i = .initPwm p dx dy
  chY : t.chY = s.chY ∨ (∃ v, i = .setChY v) ∨ i = .rxEndCommit ∨ (∃ x y, i = .move x y) ∨ ∃ p dx dy, i = .initPwm p dx dy
  actX : t.actX = s.actX ∨ i = .pBound ∨ ∃ p dx dy, i = .initPwm p dx dy
  actY : t.actY = s.actY ∨ i = .pBound ∨ ∃ p dx dy, i = .initPwm p dx dy

theorem Completes.writesOnlyItsOwn {i : Instr} {s t : State} (h : Completes s i t) (hne : i ≠ .reset) :
    WritesOnlyItsOwn i s t := by
  cases h with
  | move h =>
    have hk := rxBytes_keeps h
    constructor <;> simp [hk.cfg, hk.rxEn, hk.table, hk.period, hk.actX, hk.actY]
  | build hm hs hr ht => constructor <;> simp [hr, ht]
  | reset => exact absurd rfl hne
  | _ => constructor <;> simp [Instr.isRx]

/-- Settles O46: `RESET` aside, a register that an operation does not write keeps its value. -/
theorem operationsWriteOnlyTheirRegisters : Obligations.OperationsWriteOnlyTheirRegisters := by
  refine ⟨fun i s t h => ?_, fun _ => step_of_nil⟩
  by_cases hne : i = .reset
  · subst hne
    cases execReset_next h
    exact ⟨rfl, rfl, .inl rfl⟩
  · have hw := (completes_of_exec h).writesOnlyItsOwn hne
    refine ⟨hw.cfg, exec_next_inputs h, .inr ⟨hw.rxEn, hw.state, hw.cmd0, hw.cmd1, hw.cmd2, hw.cmd3, fun a => ?_, hw.period,
      hw.chX, hw.chY, hw.actX, hw.actY⟩⟩
    rcases hw.table with ht | ⟨mn, mx, steps, rfl, -, -, ht⟩
    · exact .inl (by rw [ht])
    · rw [ht, read_buildTable]
      split
      · next ha => exact .inr ⟨mn, mx, steps, rfl, ha⟩
      · exact .inl rfl

/-- Settles O18: the one other writer of the table is a `BUILD` that found it unbuilt before `RXENABLE`. -/
theorem tableIsImmutableOnceBuilt : Obligations.TableIsImmutableOnceBuilt := by
  intro i s t h
  by_cases hne : i = .reset
  · exact .inr (.inl hne)
  · rcases ((completes_of_exec h).writesOnlyItsOwn hne).table with ht | ⟨mn, mx, steps, hi, hr, h0, -⟩
    · exact .inl ht
    · exact .inr (.inr ⟨⟨mn, mx, steps, hi⟩, hr, h0⟩)

/-- Settles O42: each byte operation moves `state` by its own arrow, and no other operation but `RESET` and `MOVE` writes it. -/
theorem stateFollowsItsSuccessorRelation : Obligations.StateFollowsItsSuccessorRelation := by
  intro i s t h hreset hmove
  cases completes_of_exec h with
  | reset => exact absurd rfl hreset
  | move => exact absurd rfl (hmove _ _)
  | rxStartHit _ hs | rxStartMiss _ hs | rxX _ hs | rxY _ hs | rxEndCommit _ hs | rxEndDiscard _ hs => simp [hs]
  | _ => simp [Instr.isRx]

/-- A flag that kept its value moved neither way. -/
theorem moved_of_kept {a b : Bool} (h : b = a) {P Q : Prop} :
    (a = true → b = false → P) ∧ (a = false → b = true → Q) := by
  subst h
  cases b <;> simp

/-- Only `RESET` clears `rx_en` and only `RXENABLE` sets it (R18). -/
theorem exec_rxEn {i : Instr} {s t : State} (h : exec i s = .next t) :
    (s.rxEn = true → t.rxEn = false → i = .reset) ∧ (s.rxEn = false → t.rxEn = true → i = .rxEnable) := by
  by_cases hne : i = .reset
  · subst hne
    cases execReset_next h
    exact ⟨fun _ _ => rfl, fun _ => nofun⟩
  · rcases ((completes_of_exec h).writesOnlyItsOwn hne).rxEn with hr | rfl
    · exact moved_of_kept hr
    · obtain ⟨-, rfl⟩ := execRxEnable_next h
      exact ⟨fun _ => nofun, fun _ _ => rfl⟩

/-- Settles O48: the event of the one operation that moved `rx_en` is that operation itself, and a byte moves it never. -/
theorem onlyResetClearsTheEnable : Obligations.OnlyResetClearsTheEnable := by
  intro s t h
  rcases step_cases s with ⟨-, hs⟩ | ⟨e, rest, i, hi, hd, hs⟩ | ⟨w, rest, -, hs⟩ | ⟨w, rest, -, hs⟩ <;> rw [hs] at h
  · cases h
    exact moved_of_kept rfl
  · obtain ⟨hclear, hset⟩ := exec_rxEn h
    have he : encode i = e := encode_of_decode hd
    refine ⟨fun h1 h0 => ⟨rest, ?_⟩, fun h0 h1 => ⟨rest, ?_⟩⟩
    · rw [hi, ← he, hclear h1 h0, encode]
    · rw [hi, ← he, hset h0 h1, encode]
  · exact moved_of_kept (rxByte_keeps h).rxEn
  · cases h

end Sys2Proof.Machine

namespace Sys2Proof.Machine

/-! ### The table builder (R70 to R75) -/

/-- Settles O15: the table is the builder's, whose entries below `steps` have the closed form and whose others are the old ones. -/
theorem buildFillsTheTable : Obligations.BuildFillsTheTable := by
  intro s mn mx steps hm hs hr ht
  refine ⟨_, execBuild_of hm hs hr ht, fun i hi => ?_, fun i hi => ?_⟩
  · obtain ⟨v, hv, hval⟩ := buildTable_entry s.table hm hi
    exact ⟨v, hv, hval, hval.trans_le (entry_le_max hm hi)⟩
  · rw [read_buildTable, if_neg (by omega)]

/-- The value of entry `i` of a built table as a number, by the closed form (R71). -/
def entryValue (mn mx steps : Word) (i : Nat) : Nat := mn.toNat + (i + 1) * stepval mn mx steps

/-- Neighbouring entries differ by `stepval` (R72). -/
theorem entryValue_succ (mn mx steps : Word) (i : Nat) :
    entryValue mn mx steps (i + 1) = entryValue mn mx steps i + stepval mn mx steps := by
  rw [entryValue, entryValue, Nat.succ_mul, Nat.add_assoc]

/-- A table of two entries or more rises strictly exactly when the step is positive, which takes a `max - min` of `steps` or
more. -/
theorem entryValue_rises_iff {mn mx steps : Word} (h2 : 2 ≤ steps.toNat) :
    (∀ i, i + 1 < steps.toNat → entryValue mn mx steps i < entryValue mn mx steps (i + 1)) ↔
      steps.toNat ≤ mx.toNat - mn.toNat := by
  have hpos : 0 < stepval mn mx steps ↔ steps.toNat ≤ mx.toNat - mn.toNat :=
    Nat.div_pos_iff.trans (and_iff_right (by omega))
  simp only [entryValue_succ, Nat.lt_add_right_iff_pos, hpos]
  exact ⟨fun h => h 0 h2, fun h _ _ => h⟩

/-- The last entry is `max` exactly when the division loses nothing. -/
theorem entryValue_last_iff {mn mx steps : Word} (hm : mn.toNat < mx.toNat) (hpos : 0 < steps.toNat) :
    entryValue mn mx steps (steps.toNat - 1) = mx.toNat ↔ steps.toNat ∣ mx.toNat - mn.toNat := by
  rw [entryValue, Nat.sub_add_cancel hpos, Nat.dvd_iff_div_mul_eq, Nat.mul_comm, stepval]
  omega

/-- Settles O16: the entries are those of the closed form, a sequence that rises by `stepval`. -/
theorem builtTableRisesByItsStep : Obligations.BuiltTableRisesByItsStep := by
  intro s t mn mx steps h
  obtain ⟨hm, rfl, -, -, rfl⟩ := execBuild_next h
  exact ⟨entryValue mn mx s.cfg.steps, fun i => buildTable_entry s.table hm, fun i _ => entryValue_succ mn mx _ i,
    entryValue_rises_iff, Nat.le_add_right _ _, entryValue_last_iff hm s.cfg.steps_pos⟩

theorem buildAdmitted_iff {c : Config} {mn mx steps : Word} :
    buildAdmitted c mn mx steps = true ↔ mn.toNat < mx.toNat ∧ 0 < steps.toNat ∧ steps = c.steps := by
  simp [buildAdmitted, and_assoc]

/-- Settles O17: the three tests of R70's pseudocode in their order. -/
theorem buildRefusals : Obligations.BuildRefusals := by
  intro s mn mx steps
  refine ⟨fun h => if_pos ?bad, fun hm hs hr => ?enabled, fun v hm hs hr h0 => ?twice⟩
  case bad =>
    rw [← Bool.not_eq_true, buildAdmitted_iff]
    rintro ⟨hm, hp, hs⟩
    rcases h with h | h | h
    · omega
    · omega
    · exact h hs
  all_goals
    have ha : buildAdmitted s.cfg mn mx steps = true := buildAdmitted_iff.2 ⟨hm, hs ▸ s.cfg.steps_pos, hs⟩
  case enabled => simp [exec, execBuild, ha, hr]
  case twice => simp [exec, execBuild, ha, hr, State.buildDone, h0]

/-! ### The PWM driver (R80 to R86) -/

section HostWrites

variable {s : State}

theorem exec_setPeriod_of (hr : s.rxEn = false) (v : Word) : exec (.setPeriod v) s = .next (s.putPeriod v) :=
  if_neg (by simp [hr])

theorem exec_setChX_of (hr : s.rxEn = false) (v : Word) : exec (.setChX v) s = .next (s.putChX v) :=
  if_neg (by simp [hr])

theorem exec_setChY_of (hr : s.rxEn = false) (v : Word) : exec (.setChY v) s = .next (s.putChY v) :=
  if_neg (by simp [hr])

theorem exec_initPwm_of (hr : s.rxEn = false) (p dx dy : Word) : exec (.initPwm p dx dy) s =
    .next (((((s.putPeriod p).putChX dx).putChY dy).putActX dx).putActY dy) :=
  if_neg (by simp [hr])

end HostWrites

/-- Settles O19: before `RXENABLE` each register write is its one writer. -/
theorem registerWritesBeforeEnable : Obligations.RegisterWritesBeforeEnable :=
  fun _ v hr => ⟨exec_setPeriod_of hr v, exec_setChX_of hr v, exec_setChY_of hr v⟩

/-- Settles O20: each host write tests `rx_en` first. -/
theorem registerWritesRefusedAfterEnable : Obligations.RegisterWritesRefusedAfterEnable :=
  fun _ _ _ _ _ hr => ⟨if_pos hr, if_pos hr, if_pos hr, if_pos hr⟩

/-- Settles O21: with the timer configured both compare values are read and copied. -/
theorem periodBoundaryCopiesThePair : Obligations.PeriodBoundaryCopiesThePair :=
  fun _ _ _ _ => execPBound_of

/-- Without a configured timer there is no boundary (R83). -/
theorem execPBound_refused {s : State} (h : s.timerConfigured = false) : execPBound s = .refused .timerNotConfigured :=
  if_pos h

/-- Settles O22: one unwritten register of the three is a timer that is not configured. -/
theorem periodBoundaryNeedsATimer : Obligations.PeriodBoundaryNeedsATimer := by
  intro s h
  refine execPBound_refused ?_
  rcases h with h | h | h <;> simp [State.timerConfigured, h]

/-- Settles O23: `INITPWM` is its five writers. -/
theorem initPwmLoadsFiveRegisters : Obligations.InitPwmLoadsFiveRegisters :=
  fun _ p dx dy hr => exec_initPwm_of hr p dx dy

/-! ### `RXENABLE` (R110) -/

theorem execRxEnable_of {s : State} (h : s.initialised = true) : execRxEnable s = .next (s.putRxEn true) :=
  if_neg (by simp [h])

/-- Settles O43: the test of `RXENABLE` is that the entries below `STEPS` and the five timer registers are written. -/
theorem enableNeedsAnInitialisedBlock : Obligations.EnableNeedsAnInitialisedBlock := by
  intro s
  have hiff := initialised_iff s
  simp only [Memory.writtenBelow_iff, isWritten_iff_ne] at hiff
  constructor
  · intro ht hp hx hy hax hay
    exact execRxEnable_of (hiff.2 ⟨ht, hp, hx, hy, hax, hay⟩)
  · intro h
    refine if_pos (Bool.eq_false_iff.2 fun hinit => ?_)
    obtain ⟨ht, hp, hx, hy, hax, hay⟩ := hiff.1 hinit
    rcases h with ⟨i, hi, h⟩ | h | h | h | h | h
    · exact ht i hi h
    · exact hp h
    · exact hx h
    · exact hy h
    · exact hax h
    · exact hay h

/-! ### The clamp (R92) -/

/-- Settles O25: the clamp as arithmetic; a clamped value is below `STEPS`, where the clamp is the identity. -/
theorem clampLaws : Obligations.ClampLaws := by
  intro c v
  refine ⟨fun h => ?_, clamp_of_lt, clamp_le_maxIndex c v, clamp_of_lt (clamp_lt c v), fun h => clamp_of_lt ?_⟩
  · rw [toNat_clamp, if_neg (by omega)]
  · have := v.isLt
    omega

/-- A byte with the clamped value is the clamped byte. -/
theorem eq_clamp {c : Config} {b k : Byte}
    (hk : k.toNat = if b.toNat < c.steps.toNat then b.toNat else c.steps.toNat - 1) : k = clamp c b :=
  BitVec.eq_of_toNat_eq (hk.trans (toNat_clamp c b).symm)

/-! ### The operations on one received byte (R91, R95 to R98) -/

/-- A byte operation that R55 selects is what its byte does. -/
theorem exec_of_selected {s : State} {b : Byte} {i : Instr} (hd : decodeByte s.rxEn s.state b = i) :
    exec i s = rxByte b s := by
  rw [rxByte_eq_exec, hd]

/-- Settles O26: with the receiver off every byte is `RX.OFF`, which has no write. -/
theorem byteWhileOffChangesNothing : Obligations.ByteWhileOffChangesNothing := by
  intro s b hr
  have hd : decodeByte s.rxEn s.state b = .rxOff b := by rw [hr, decodeByte_off]
  exact (exec_of_selected hd).trans (rxByte_off hr b)

/-- Settles O29: the index that is stored is the clamp of the byte. -/
theorem indexBytesAreStoredClamped : Obligations.IndexBytesAreStoredClamped := by
  intro s b k hr hk
  cases eq_clamp hk
  constructor
  · intro hs
    have hd : decodeByte s.rxEn s.state b = .rxX b := by rw [hr, hs, decodeByte_awaitingX]
    exact (exec_of_selected hd).trans (rxByte_x hr hs b)
  · intro hs
    have hd : decodeByte s.rxEn s.state b = .rxY b := by rw [hr, hs, decodeByte_awaitingY]
    exact (exec_of_selected hd).trans (rxByte_y hr hs b)

/-- The end marker in `AwaitingEnd` selects the commit. -/
theorem decodeByte_endMarker {s : State} (hr : s.rxEn = true) (hs : s.state = .awaitingEnd) :
    decodeByte s.rxEn s.state endMarker = .rxEndCommit := by
  rw [hr, hs, decodeByte_awaitingEnd, if_pos rfl]

/-- Settles O30: with both operands written and in range the commit is its four writes. -/
theorem commitWritesBothChannelsCrossed : Obligations.CommitWritesBothChannelsCrossed :=
  fun _ _ _ _ _ hr hs hx hy hxs hys hvx hvy => execRxEndCommit_of (decodeByte_endMarker hr hs) hx hy hxs hys hvx hvy

/-- Settles O31: the commit reads `cmd[2]`, `cmd[1]`, the Y-indexed entry and the X-indexed one, in this order. -/
theorem commitStopsOnUnwrittenOperands : Obligations.CommitStopsOnUnwrittenOperands := by
  intro s hr hs
  have hc : exec .rxEndCommit s = s.cmd.c2.read fun y => s.cmd.c1.read fun x =>
      commitPair ((s.putCmd3 endMarker).putState .awaitingStart) x y := whenSelected_of (decodeByte_endMarker hr hs)
  rw [hc]
  refine ⟨fun hy => ?_, fun y hy hx => ?_, fun x y hy hx => ?_⟩
  · rw [hy, read_unwritten]
  · rw [hy, read_written, hx, read_unwritten]
  · rw [hy, read_written, hx, read_written, commitPair, tableIndex_eq, tableIndex_eq]
    refine ⟨tableRead_of_lt, tableRead_of_unwritten, fun v hys hv => ?_⟩
    rw [tableRead_of_written (s := (s.putCmd3 endMarker).putState .awaitingStart) hys hv]
    exact ⟨tableRead_of_lt, tableRead_of_unwritten⟩

/-- Settles O32: any other byte there is `RX.END.DISCARD`. -/
theorem wrongEndByteDiscardsTheFrame : Obligations.WrongEndByteDiscardsTheFrame := by
  intro s b hr hs (hb : b ≠ endMarker)
  have hd : decodeByte s.rxEn s.state b = .rxEndDiscard b := by rw [hr, hs, decodeByte_awaitingEnd, if_neg hb]
  exact (exec_of_selected hd).trans (rxByte_end_discard hr hs hb)

/-- Every byte operation stands behind the test of R55 for the byte that carries it. -/
theorem exec_eq_whenSelected {i : Instr} (hr : i.isRx = true) (s : State) :
    ∃ b k, encode i = .rxByte b ∧ exec i s = whenSelected i b s k := by
  cases i with
  | rxOff | rxStartHit | rxStartMiss | rxX | rxY | rxEndCommit | rxEndDiscard => exact ⟨_, _, rfl, rfl⟩
  | _ => cases hr

/-- Settles O35: what R55 selects is well-formed and selected in its context, so an operation that is not was not selected. -/
theorem unselectedByteOperationIsRefused : Obligations.UnselectedByteOperationIsRefused := by
  intro s i hr h
  obtain ⟨b, k, -, hk⟩ := exec_eq_whenSelected hr s
  rw [hk]
  refine whenSelected_of_not fun hd => ?_
  obtain ⟨-, hw, hs, -⟩ := decodeByte_sound s.rxEn s.state b
  rw [hd] at hw hs
  rcases h with h | h
  · simp [hw] at h
  · simp [hs] at h

end Sys2Proof.Machine

namespace Sys2Proof.Machine

/-! ### Byte streams (R60, R99) -/

/-- A stream is received as its bytes one after another. -/
theorem receive_eq_rxBytes (bs : List Byte) (s : State) : receive bs s = rxBytes bs s := by
  induction bs generalizing s with
  | nil => rfl
  | cons b bs ih =>
    rw [receive_cons, rxBytes_cons]
    congr 1
    funext t
    exact ih t

theorem rxBytes_append (as bs : List Byte) (s : State) : rxBytes (as ++ bs) s = andThen (rxBytes as s) (rxBytes bs) := by
  simpa only [receive_eq_rxBytes, funext (receive_eq_rxBytes bs)] using receive_append as bs s

theorem rxBytes_singleton (b : Byte) (s : State) : rxBytes [b] s = rxByte b s := by
  rw [rxBytes_cons]
  cases rxByte b s <;> rfl

/-- Settles O34: both are the four bytes one after another. -/
theorem moveRefinesToItsBytes : Obligations.MoveRefinesToItsBytes :=
  fun s x y => (receive_eq_rxBytes [startMarker, x, y, endMarker] s).symm

/-! ### A frame from `AwaitingStart` -/

/-- `s` with the start marker and the two index bytes of a frame received: the receiver awaits its end. -/
def State.atFrameEnd (s : State) (x y : Byte) : State :=
  { s with
    state := .awaitingEnd
    cmd := ⟨.written startMarker, .written (clamp s.cfg x), .written (clamp s.cfg y), s.cmd.c3⟩ }

/-- `s` with the four bytes of a frame received that ends in `e`, the channels aside. -/
def State.afterFrame (s : State) (x y e : Byte) : State :=
  { s with cmd := ⟨.written startMarker, .written (clamp s.cfg x), .written (clamp s.cfg y), .written e⟩ }

section Frame

variable {s : State} (hr : s.rxEn = true) (hs : s.state = .awaitingStart)

include hr hs

theorem rxBytes_start : rxBytes [startMarker] s = .next ((s.putCmd0 startMarker).putState .awaitingX) := by
  rw [rxBytes_singleton, rxByte_start_hit hr hs]

theorem rxBytes_start_x (x : Byte) : rxBytes [startMarker, x] s =
    .next ((((s.putCmd0 startMarker).putState .awaitingX).putCmd1 (clamp s.cfg x)).putState .awaitingY) := by
  have hx := rxByte_x (s := (s.putCmd0 startMarker).putState .awaitingX) hr rfl x
  rw [rxBytes_cons, rxByte_start_hit hr hs, andThen_next, rxBytes_singleton, hx]
  rfl

theorem rxBytes_start_x_y (x y : Byte) : rxBytes [startMarker, x, y] s = .next (s.atFrameEnd x y) := by
  have hy := rxByte_y
    (s := (((s.putCmd0 startMarker).putState .awaitingX).putCmd1 (clamp s.cfg x)).putState .awaitingY) hr rfl y
  rw [show [startMarker, x, y] = [startMarker, x] ++ [y] from rfl, rxBytes_append, rxBytes_start_x hr hs, andThen_next,
    rxBytes_singleton, hy]
  rfl

/-- The whole frame is its last byte in `AwaitingEnd`. -/
theorem rxBytes_frame (x y e : Byte) : rxBytes [startMarker, x, y, e] s = rxByte e (s.atFrameEnd x y) := by
  rw [show [startMarker, x, y, e] = [startMarker, x, y] ++ [e] from rfl, rxBytes_append, rxBytes_start_x_y hr hs,
    andThen_next, rxBytes_singleton]

omit hr in
/-- The end byte brings the receiver back to where the frame began. -/
theorem atFrameEnd_ended (x y e : Byte) :
    ((s.atFrameEnd x y).putCmd3 e).putState .awaitingStart = s.afterFrame x y e := by
  rw [← hs]
  rfl

/-- A frame with a wrong end byte leaves its bytes in `cmd` and nothing else (R98). -/
theorem rxBytes_badEnd (x y : Byte) {e : Byte} (he : e ≠ endMarker) :
    rxBytes [startMarker, x, y, e] s = .next (s.afterFrame x y e) := by
  have hend := rxByte_end_discard (s := s.atFrameEnd x y) hr rfl he
  rw [rxBytes_frame hr hs, hend, atFrameEnd_ended hs]

/-- The net effect of `MOVE` (R99): both clamped entries reach the channels, crossed. -/
theorem execMove_of {x y : Byte} {vx vy : Word} (hvx : s.table.read (clamp s.cfg y).toNat = .written vx)
    (hvy : s.table.read (clamp s.cfg x).toNat = .written vy) :
    execMove x y s = .next (((s.afterFrame x y endMarker).putChX vx).putChY vy) := by
  have hcommit := execRxEndCommit_of (s := s.atFrameEnd x y) (decodeByte_endMarker hr rfl) rfl rfl
    (clamp_lt s.cfg x).le (clamp_lt s.cfg y).le hvx hvy
  rw [execMove, streamMove, rxBytes_frame hr hs, rxByte_end_commit (s := s.atFrameEnd x y) hr rfl, hcommit, atFrameEnd_ended hs]

end Frame

/-- Settles O33: the three bytes before the end, then the commit. -/
theorem moveNetEffect : Obligations.MoveNetEffect := fun _ _ _ _ _ hr hs => execMove_of hr hs

/-- Settles O37: the prefixes of a frame, and a frame with a wrong end. -/
theorem pseudoInstructionEffects : Obligations.PseudoInstructionEffects := by
  intro s x y e hr hs
  simp only [receive_eq_rxBytes]
  refine ⟨fun (he : e ≠ startMarker) => ?junk, fun he => rxBytes_badEnd hr hs x y he, ⟨_, rxBytes_start hr hs, rfl⟩,
    ⟨_, rxBytes_start_x hr hs x, rfl⟩, ⟨_, rxBytes_start_x_y hr hs x y, rfl⟩⟩
  case junk =>
    have hd : decodeByte s.rxEn s.state e = .rxStartMiss e := by rw [hr, hs, decodeByte_awaitingStart, if_neg he]
    rw [exec_of_selected hd]
    exact rxBytes_singleton e s

/-! ### Bytes before a start marker (R102) -/

/-- A byte that is no start marker stays in `cmd[0]` alone. -/
theorem rxByte_skipped {s : State} (hr : s.rxEn = true) (hs : s.state = .awaitingStart) {b : Byte} (hb : b ≠ startMarker) :
    rxByte b s = .next (s.putCmd0 b) := by
  have hkeep : (s.putCmd0 b).putState .awaitingStart = s.putCmd0 b := by rw [← hs]; rfl
  rw [rxByte_start_miss hr hs hb, hkeep]

/-- Whatever byte comes where a start is awaited, it overwrites `cmd[0]`: what stood there leaves no trace. -/
theorem rxByte_putCmd0 {s : State} (hr : s.rxEn = true) (hs : s.state = .awaitingStart) (a b : Byte) :
    rxByte b (s.putCmd0 a) = rxByte b s := by
  by_cases hb : b = startMarker
  · have hhit := rxByte_start_hit (s := s.putCmd0 a) hr hs
    rw [hb, hhit, rxByte_start_hit hr hs]
    rfl
  · have hmiss := rxByte_start_miss (s := s.putCmd0 a) hr hs hb
    rw [hmiss, rxByte_start_miss hr hs hb]
    rfl

/-- Skipped bytes and at least one byte after them do what that byte and the rest do alone. -/
theorem receive_skip_append {s : State} {g : List Byte} (hr : s.rxEn = true) (hs : s.state = .awaitingStart)
    (hg : ∀ b ∈ g, b ≠ startMarker) (b : Byte) (bs : List Byte) : receive (g ++ b :: bs) s = receive (b :: bs) s := by
  induction g generalizing s with
  | nil => rfl
  | cons a g ih =>
    obtain ⟨ha, hg⟩ := List.forall_mem_cons.1 hg
    rw [List.cons_append, receive_cons, rxByte_skipped hr hs ha, andThen_next, ih (s := s.putCmd0 a) hr hs hg, receive_cons,
      rxByte_putCmd0 hr hs, ← receive_cons]

/-- Settles O39: every skipped byte is overwritten by the next, so only the last one stays. -/
theorem garbagePrefixIsTransparent : Obligations.GarbagePrefixIsTransparent := by
  intro s g hr hs hg
  refine ⟨receive_skip_append hr hs hg, fun b hlast => ?_⟩
  obtain ⟨g', rfl⟩ := List.getLast?_eq_some_iff.1 hlast
  have hg' : ∀ a ∈ g', a ≠ startMarker := fun a ha => hg a (List.mem_append_left _ ha)
  have hb : b ≠ startMarker := hg b (by simp)
  rw [receive_skip_append hr hs hg', receive_cons, rxByte_skipped hr hs hb]
  rfl

/-! ### Bytes that are no marker (R156) -/

/-- Where a byte that is no marker takes the receiver. -/
def afterNeutral : RxState → RxState
  | .awaitingStart => .awaitingStart
  | .awaitingX => .awaitingY
  | .awaitingY => .awaitingEnd
  | .awaitingEnd => .awaitingStart

/-- A byte that is no marker commits nothing. -/
theorem rxByte_neutral {s : State} (hr : s.rxEn = true) {b : Byte} (hb : b ≠ startMarker ∧ b ≠ endMarker) :
    ∃ t, rxByte b s = .next t ∧ t.state = afterNeutral s.state ∧ t.rxEn = true ∧ t.chX = s.chX ∧ t.chY = s.chY := by
  cases hs : s.state with
  | awaitingStart => exact ⟨_, rxByte_start_miss hr hs hb.1, rfl, hr, rfl, rfl⟩
  | awaitingX => exact ⟨_, rxByte_x hr hs b, rfl, hr, rfl, rfl⟩
  | awaitingY => exact ⟨_, rxByte_y hr hs b, rfl, hr, rfl, rfl⟩
  | awaitingEnd => exact ⟨_, rxByte_end_discard hr hs hb.2, rfl, hr, rfl, rfl⟩

theorem afterNeutral_three (st : RxState) :
    afterNeutral (afterNeutral (afterNeutral st)) = .awaitingStart := by
  cases st <;> rfl

/-- Settles O40: three moves by bytes that are no marker end in `AwaitingStart` from anywhere. -/
theorem threeNeutralBytesRealign : Obligations.ThreeNeutralBytesRealign := by
  intro s b0 b1 b2 hr hb
  obtain ⟨t0, h0, hs0, hr0, hx0, hy0⟩ := rxByte_neutral hr (hb b0 (by simp))
  obtain ⟨t1, h1, hs1, hr1, hx1, hy1⟩ := rxByte_neutral hr0 (hb b1 (by simp))
  obtain ⟨t2, h2, hs2, -, hx2, hy2⟩ := rxByte_neutral hr1 (hb b2 (by simp))
  refine ⟨t2, ?_, ?_, hx2.trans (hx1.trans hx0), hy2.trans (hy1.trans hy0)⟩
  · rw [receive_cons, h0, andThen_next, receive_cons, h1, andThen_next, receive_cons, h2, andThen_next, receive_nil]
  · rw [hs2, hs1, hs0, afterNeutral_three]

/-! ### Compare values before a period boundary (R81, R82, R160) -/

/-- An operation that depends on no context, delivered by its encoding. -/
theorem deliver_encode_cons {i : Instr} {s t : State} (es : List Event) (hw : i.wf = true)
    (hsel : i.selectedIn s.rxEn s.state = true) (h : exec i s = .next t) : deliver (encode i :: es) s = deliver es t := by
  rw [deliver_cons es (decode_encode hw hsel), h, andThen_next]

/-- A period boundary alone. -/
theorem deliver_pBound {s : State} {p x y : Word} (hp : s.period = .written p) (hx : s.chX = .written x)
    (hy : s.chY = .written y) : deliver [.pBound] s = .next ((s.putActX x).putActY y) :=
  deliver_encode_cons (i := .pBound) [] rfl rfl (execPBound_of hp hx hy)

theorem deliver_setChX_setChX {s : State} (hr : s.rxEn = false) (v w : Word) (es : List Event) :
    deliver (encode (.setChX v) :: encode (.setChX w) :: es) s = deliver es (s.putChX w) := by
  have h2 := exec_setChX_of (s := s.putChX v) hr w
  rw [deliver_encode_cons _ rfl rfl (exec_setChX_of hr v), deliver_encode_cons _ rfl rfl h2]
  rfl

theorem deliver_setChY_setChY {s : State} (hr : s.rxEn = false) (v w : Word) (es : List Event) :
    deliver (encode (.setChY v) :: encode (.setChY w) :: es) s = deliver es (s.putChY w) := by
  have h2 := exec_setChY_of (s := s.putChY v) hr w
  rw [deliver_encode_cons _ rfl rfl (exec_setChY_of hr v), deliver_encode_cons _ rfl rfl h2]
  rfl

theorem receive_move_of {s : State} (hr : s.rxEn = true) (hs : s.state = .awaitingStart) {x y : Byte} {vx vy : Word}
    (hvx : s.table.read (clamp s.cfg y).toNat = .written vx) (hvy : s.table.read (clamp s.cfg x).toNat = .written vy) :
    receive (streamMove x y) s = .next (((s.afterFrame x y endMarker).putChX vx).putChY vy) :=
  (receive_eq_rxBytes _ s).trans (execMove_of hr hs hvx hvy)

/-- Settles O24: the second of two writes is the one that stands when the boundary copies the pair. -/
theorem lastWriteBeforeTheBoundaryTakesEffect : Obligations.LastWriteBeforeTheBoundaryTakesEffect := by
  intro s p cx cy hp hcx hcy
  refine ⟨fun hr v w => ⟨⟨_, deliver_setChX_setChX hr v w [], rfl, rfl⟩, ?chX, ⟨_, deliver_setChY_setChY hr v w [], rfl, rfl⟩,
    ?chY⟩, fun hr hs x y x' y' v w v' w' hv hw hv' hw' => ?frames⟩
  case chX => exact (deliver_setChX_setChX hr v w _).trans (deliver_pBound (s := s.putChX w) hp rfl hcy)
  case chY => exact (deliver_setChY_setChY hr v w _).trans (deliver_pBound (s := s.putChY w) hp hcx rfl)
  case frames =>
    have h1 := receive_move_of hr hs hv hw
    have h2 : receive (streamMove x y ++ streamMove x' y') s =
        .next (((s.afterFrame x' y' endMarker).putChX v').putChY w') := by
      rw [receive_append, h1, andThen_next]
      exact receive_move_of (s := ((s.afterFrame x y endMarker).putChX v).putChY w) hr hs hv' hw'
    refine ⟨⟨_, h1, rfl, rfl, rfl, rfl⟩, ⟨_, h2, rfl, rfl⟩, ?_⟩
    rw [deliver_bytes_append, h2, andThen_next]
    exact deliver_pBound (s := ((s.afterFrame x' y' endMarker).putChX v').putChY w') hp rfl rfl

/-! ### Initialisation (R112, R113) -/

/-- The table that the configuration's own `BUILD` leaves. -/
def bootTable (c : Config) : Memory := buildTable [] c.servoMin c.servoMax c.steps

/-- The state of R113. -/
def bootedState (c : Config) (es : List Event) : State where
  cfg := c
  state := .awaitingStart
  rxEn := true
  cmd := ⟨.unwritten, .unwritten, .unwritten, .unwritten⟩
  table := bootTable c
  period := .written c.periodTicks
  chX := .written c.initDutyX
  chY := .written c.initDutyY
  actX := .written c.initDutyX
  actY := .written c.initDutyY
  inputs := es

/-- `BUILD` with the configuration's own values completes before `RXENABLE` on a table with no entry. -/
theorem exec_build_config {s : State} (hr : s.rxEn = false) (ht : s.table = []) :
    exec (.build s.cfg.servoMin s.cfg.servoMax s.cfg.steps) s = .next (s.putTable (bootTable s.cfg)) := by
  have h := execBuild_of s.cfg.servo_lt rfl hr (by rw [ht, Memory.read_nil])
  rw [ht] at h
  exact h

/-- `RXENABLE` and `IDLE` on a block whose table and timer registers are loaded. -/
theorem deliver_enable_idle (c : Config) (es : List Event) :
    deliver [.rxEnable, .idle] ((bootedState c es).putRxEn false) = .next (bootedState c es) := by
  have hinit : ((bootedState c es).putRxEn false).initialised = true :=
    (initialised_iff _).2 ⟨writtenBelow_buildTable _ _ _ _, rfl, rfl, rfl, rfl, rfl⟩
  exact (deliver_encode_cons (i := .rxEnable) [.idle] rfl rfl (execRxEnable_of hinit)).trans (deliver_idle_cons [] _)

theorem deliver_bootTrace (s : State) : deliver (bootTrace s.cfg) s = .next (bootedState s.cfg s.inputs) := by
  refine (deliver_encode_cons (i := .reset) _ rfl rfl rfl).trans ?_
  refine (deliver_encode_cons (i := .build _ _ _) _ rfl rfl
    (exec_build_config (s := (State.resetWith s.cfg).putInputs s.inputs) rfl rfl)).trans ?_
  refine (deliver_encode_cons (i := .initPwm _ _ _) _ rfl rfl (exec_initPwm_of rfl _ _ _)).trans ?_
  exact deliver_enable_idle s.cfg s.inputs

/-- The initialisation trace with `BUILD` and `INITPWM` swapped. -/
theorem deliver_bootTrace_swapped (s : State) :
    deliver [.reset, .initPwm s.cfg.periodTicks s.cfg.initDutyX s.cfg.initDutyY,
      .build s.cfg.servoMin s.cfg.servoMax s.cfg.steps, .rxEnable, .idle] s = .next (bootedState s.cfg s.inputs) := by
  refine (deliver_encode_cons (i := .reset) _ rfl rfl rfl).trans ?_
  refine (deliver_encode_cons (i := .initPwm _ _ _) _ rfl rfl
    (exec_initPwm_of (s := (State.resetWith s.cfg).putInputs s.inputs) rfl _ _ _)).trans ?_
  refine (deliver_encode_cons (i := .build _ _ _) _ rfl rfl (exec_build_config rfl rfl)).trans ?_
  exact deliver_enable_idle s.cfg s.inputs

/-- Settles O45: both orders leave the state of R113, whose table is the one `BUILD` makes of no entries. -/
theorem bootLeavesTheInitialState : Obligations.BootLeavesTheInitialState := by
  intro s
  refine ⟨bootTable s.cfg, deliver_bootTrace s, fun i => buildTable_entry [] s.cfg.servo_lt, fun i hi => ?_,
    (deliver_bootTrace_swapped s).trans (deliver_bootTrace s).symm⟩
  rw [bootTable, read_buildTable, if_neg (by omega), Memory.read_nil]

end Sys2Proof.Machine

namespace Sys2Proof.Machine

/-! ### The invariant of runs (R23) -/

/-- The reset state of a configuration meets the invariant: nothing is written, and the receiver is off. -/
theorem inv_resetWith (c : Config) : Inv (State.resetWith c) where
  tableOrdered := rfl
  tableBounded := nofun
  tableWhole := .inl rfl
  idleBeforeEnable _ := ⟨rfl, rfl⟩
  initialisedAfterEnable := nofun
  markerHeld h := absurd rfl h
  indexXHeld := nofun
  indexYHeld := nofun

/-- Settles O50: the hardware's configuration is one of them. -/
theorem invariantHoldsAtReset : Obligations.InvariantHoldsAtReset := ⟨inv_resetWith _, inv_resetWith⟩

/-- The invariant looks at the timer registers only through `initialised`. -/
theorem Inv.of_same_receiver {s t : State} (h : Inv s) (hcfg : t.cfg = s.cfg) (hstate : t.state = s.state)
    (hrx : t.rxEn = s.rxEn) (hcmd : t.cmd = s.cmd) (htable : t.table = s.table)
    (hinit : s.initialised = true → t.initialised = true) : Inv t where
  tableOrdered := htable ▸ h.tableOrdered
  tableBounded := by rw [htable, hcfg]; exact h.tableBounded
  tableWhole := by rw [htable, hcfg]; exact h.tableWhole
  idleBeforeEnable := by rw [hrx, hstate, hcmd]; exact h.idleBeforeEnable
  initialisedAfterEnable hr := hinit (h.initialisedAfterEnable (hrx ▸ hr))
  markerHeld := by rw [hstate, hcmd]; exact h.markerHeld
  indexXHeld := by rw [hstate, hcmd, hcfg]; exact h.indexXHeld
  indexYHeld := by rw [hstate, hcmd, hcfg]; exact h.indexYHeld

section TimerWriters

variable {s : State}

theorem initialised_putPeriod (v : Word) (h : s.initialised = true) : (s.putPeriod v).initialised = true :=
  have ⟨ht, _, hx, hy, hax, hay⟩ := (initialised_iff s).1 h
  (initialised_iff _).2 ⟨ht, rfl, hx, hy, hax, hay⟩

theorem initialised_putChX (v : Word) (h : s.initialised = true) : (s.putChX v).initialised = true :=
  have ⟨ht, hp, _, hy, hax, hay⟩ := (initialised_iff s).1 h
  (initialised_iff _).2 ⟨ht, hp, rfl, hy, hax, hay⟩

theorem initialised_putChY (v : Word) (h : s.initialised = true) : (s.putChY v).initialised = true :=
  have ⟨ht, hp, hx, _, hax, hay⟩ := (initialised_iff s).1 h
  (initialised_iff _).2 ⟨ht, hp, hx, rfl, hax, hay⟩

theorem initialised_putActX (v : Word) (h : s.initialised = true) : (s.putActX v).initialised = true :=
  have ⟨ht, hp, hx, hy, _, hay⟩ := (initialised_iff s).1 h
  (initialised_iff _).2 ⟨ht, hp, hx, hy, rfl, hay⟩

theorem initialised_putActY (v : Word) (h : s.initialised = true) : (s.putActY v).initialised = true :=
  have ⟨ht, hp, hx, hy, hax, _⟩ := (initialised_iff s).1 h
  (initialised_iff _).2 ⟨ht, hp, hx, hy, hax, rfl⟩

theorem Inv.putPeriod (h : Inv s) (v : Word) : Inv (s.putPeriod v) :=
  h.of_same_receiver rfl rfl rfl rfl rfl (initialised_putPeriod v)

theorem Inv.putChX (h : Inv s) (v : Word) : Inv (s.putChX v) :=
  h.of_same_receiver rfl rfl rfl rfl rfl (initialised_putChX v)

theorem Inv.putChY (h : Inv s) (v : Word) : Inv (s.putChY v) :=
  h.of_same_receiver rfl rfl rfl rfl rfl (initialised_putChY v)

theorem Inv.putActX (h : Inv s) (v : Word) : Inv (s.putActX v) :=
  h.of_same_receiver rfl rfl rfl rfl rfl (initialised_putActX v)

theorem Inv.putActY (h : Inv s) (v : Word) : Inv (s.putActY v) :=
  h.of_same_receiver rfl rfl rfl rfl rfl (initialised_putActY v)

end TimerWriters

/-- A `BUILD` before `RXENABLE` leaves a whole table, with no entry from `STEPS` on (R70, R76). -/
theorem Inv.putBuiltTable {s : State} (h : Inv s) (hr : s.rxEn = false) (mn mx : Word) :
    Inv (s.putTable (buildTable s.table mn mx s.cfg.steps)) where
  tableOrdered := wf_buildTable h.tableOrdered _ _ _
  tableBounded p hp := (mem_buildTable hp).elim id (h.tableBounded p)
  tableWhole := .inr (writtenBelow_buildTable _ _ _ _)
  idleBeforeEnable := h.idleBeforeEnable
  initialisedAfterEnable hr' := absurd (hr.symm.trans hr') (by decide)
  markerHeld := h.markerHeld
  indexXHeld := h.indexXHeld
  indexYHeld := h.indexYHeld

/-- `RXENABLE` on an initialised block. -/
theorem Inv.putRxEn {s : State} (h : Inv s) (hi : s.initialised = true) : Inv (s.putRxEn true) where
  tableOrdered := h.tableOrdered
  tableBounded := h.tableBounded
  tableWhole := h.tableWhole
  idleBeforeEnable := nofun
  initialisedAfterEnable _ := hi
  markerHeld := h.markerHeld
  indexXHeld := h.indexXHeld
  indexYHeld := h.indexYHeld

/-- A start marker begins a frame with the marker held (R93). -/
theorem Inv.beginFrame {s : State} (h : Inv s) (hr : s.rxEn = true) :
    Inv ((s.putCmd0 startMarker).putState .awaitingX) where
  tableOrdered := h.tableOrdered
  tableBounded := h.tableBounded
  tableWhole := h.tableWhole
  idleBeforeEnable hr' := absurd (hr.symm.trans hr') (by decide)
  initialisedAfterEnable := h.initialisedAfterEnable
  markerHeld _ := rfl
  indexXHeld := nofun
  indexYHeld := nofun

/-- A byte that is skipped or ends a frame leaves the receiver in `AwaitingStart`. -/
theorem Inv.putCmd_awaitingStart {s : State} (h : Inv s) (hr : s.rxEn = true) (cmd : CmdBuf) :
    Inv { s with cmd := cmd, state := .awaitingStart } where
  tableOrdered := h.tableOrdered
  tableBounded := h.tableBounded
  tableWhole := h.tableWhole
  idleBeforeEnable hr' := absurd (hr.symm.trans hr') (by decide)
  initialisedAfterEnable := h.initialisedAfterEnable
  markerHeld hne := absurd rfl hne
  indexXHeld := nofun
  indexYHeld := nofun

/-- Every operation but `MOVE`, which is four of them, keeps the invariant. -/
theorem Inv.completes {s t : State} {i : Instr} (h : Inv s) (hc : Completes s i t) (hm : ∀ x y, i ≠ .move x y) : Inv t := by
  cases hc with
  | build _ hs hr => subst hs; exact h.putBuiltTable hr _ _
  | setPeriod => exact h.putPeriod _
  | setChX => exact h.putChX _
  | setChY => exact h.putChY _
  | pBound => exact (h.putActX _).putActY _
  | initPwm => exact ((((h.putPeriod _).putChX _).putChY _).putActX _).putActY _
  | rxOff => exact h
  | rxStartHit hr => exact h.beginFrame hr
  | rxStartMiss hr => exact h.putCmd_awaitingStart hr _
  | rxX _ hs => exact h.storeX hs _
  | rxY _ hs => exact h.storeY hs _
  | rxEndCommit hr => exact ((h.putCmd_awaitingStart hr _).putChX _).putChY _
  | rxEndDiscard hr => exact h.putCmd_awaitingStart hr _
  | move => exact absurd rfl (hm _ _)
  | rxEnable hi => exact h.putRxEn hi
  | idle => exact h
  | reset => exact (inv_resetWith _).putInputs _

theorem Inv.of_rxByte {s t : State} {b : Byte} (h : Inv s) (hb : rxByte b s = .next t) : Inv t :=
  h.completes (completes_of_exec ((rxByte_eq_exec b s).symm.trans hb)) (decodeByte_ne_move _ _ _)

/-- Any bytes complete and keep the invariant (R104, R105). -/
theorem Inv.rxBytes_complete {s : State} (h : Inv s) (bs : List Byte) : ∃ t, rxBytes bs s = .next t ∧ Inv t := by
  induction bs generalizing s with
  | nil => exact ⟨s, rfl, h⟩
  | cons b bs ih =>
    obtain ⟨u, hu⟩ := h.rxByte_completes b
    rw [rxBytes_cons, hu, andThen_next]
    exact ih (h.of_rxByte hu)

theorem Inv.of_exec {s t : State} {i : Instr} (h : Inv s) (hx : exec i s = .next t) : Inv t := by
  by_cases hm : ∃ x y, i = .move x y
  · obtain ⟨x, y, rfl⟩ := hm
    obtain ⟨u, hu, hinv⟩ := h.rxBytes_complete (streamMove x y)
    cases hx.symm.trans hu
    exact hinv
  · exact h.completes (completes_of_exec hx) fun x y hi => hm ⟨x, y, hi⟩

theorem Inv.of_step {s t : State} (h : Inv s) (hs : step s = .next t) : Inv t := by
  obtain ⟨i, l, -, hx⟩ := step_next hs
  exact (h.putInputs l).of_exec hx

/-- Settles O51: a step is one operation, and each operation keeps the invariant. -/
theorem stepKeepsTheInvariant : Obligations.StepKeepsTheInvariant := fun _ _ h => h.of_step

/-- Settles O52: by induction on the stream, each byte completing in a state that meets the invariant. -/
theorem noByteStreamStopsTheReceiver : Obligations.NoByteStreamStopsTheReceiver := by
  intro s bs h
  rw [receive_eq_rxBytes]
  exact h.rxBytes_complete bs

/-! ### What a stream does, by its parse (R100) -/

/-- The channels of `t` show the frame `last` of a stream received from `s`: its entries, crossed and clamped, or those of `s`
if there was none. -/
def ShowsFrame (s t : State) (last : Option (Byte × Byte)) : Prop :=
  match last with
  | none => t.chX = s.chX ∧ t.chY = s.chY
  | some (x, y) => t.chX = s.table.read (clamp s.cfg y).toNat ∧ t.chY = s.table.read (clamp s.cfg x).toNat

/-- Where the parse of a stream stands between two frames: the receiver is on and awaits a start, the channels show the frame
`last` of the stream so far, and what the bytes do not write is as in `s`, where the stream began. -/
structure BetweenFrames (s : State) (last : Option (Byte × Byte)) (u : State) : Prop where
  inv : Inv u
  on : u.rxEn = true
  start : u.state = .awaitingStart
  cfg : u.cfg = s.cfg
  table : u.table = s.table
  shows : ShowsFrame s u last

/-- Bytes that end in `AwaitingStart` end between two frames again. -/
theorem BetweenFrames.of_rxBytes {s u v : State} {last last' : Option (Byte × Byte)} {bs : List Byte}
    (h : BetweenFrames s last u) (hv : rxBytes bs u = .next v) (hstart : v.state = .awaitingStart)
    (hshow : ShowsFrame s v last') : BetweenFrames s last' v := by
  obtain ⟨w, hw, hinv⟩ := h.inv.rxBytes_complete bs
  cases hv.symm.trans hw
  have hk := rxBytes_keeps hv
  exact ⟨hinv, hk.rxEn.trans h.on, hstart, hk.cfg.trans h.cfg, hk.table.trans h.table, hshow⟩

/-- A byte that is skipped moves neither the receiver nor the channels. -/
theorem BetweenFrames.skip {s u : State} {last : Option (Byte × Byte)} (h : BetweenFrames s last u) {b : Byte}
    (hb : b ≠ startMarker) : ∃ v, rxByte b u = .next v ∧ BetweenFrames s last v := by
  have hv := rxByte_skipped h.on h.start hb
  exact ⟨_, hv, h.of_rxBytes ((rxBytes_singleton b u).trans hv) h.start h.shows⟩

/-- A whole frame comes back to `AwaitingStart`, and its end byte alone decides which frame the channels show. -/
theorem BetweenFrames.frame {s u : State} {last : Option (Byte × Byte)} (h : BetweenFrames s last u) (x y e : Byte) :
    ∃ v, rxBytes [startMarker, x, y, e] u = .next v ∧
      BetweenFrames s (if e = endMarker then some (x, y) else last) v := by
  by_cases he : e = endMarker
  · obtain ⟨vx, hvx⟩ := h.inv.read_written h.on (clamp_lt u.cfg y)
    obtain ⟨vy, hvy⟩ := h.inv.read_written h.on (clamp_lt u.cfg x)
    have hv : rxBytes [startMarker, x, y, endMarker] u = _ := execMove_of h.on h.start hvx hvy
    rw [h.table, h.cfg] at hvx hvy
    rw [if_pos he, he]
    exact ⟨_, hv, h.of_rxBytes hv h.start ⟨hvx.symm, hvy.symm⟩⟩
  · have hv := rxBytes_badEnd h.on h.start x y he
    rw [if_neg he]
    exact ⟨_, hv, h.of_rxBytes hv h.start h.shows⟩

/-- From `AwaitingStart` a stream takes the receiver where its parse ends, with the channels showing the last frame the parse
kept: by induction on the parse. -/
theorem BetweenFrames.rxBytes_parse {s u : State} {last : Option (Byte × Byte)} (h : BetweenFrames s last u)
    (bs : List Byte) :
    ∃ t, rxBytes bs u = .next t ∧ t.state = (parse last bs).2 ∧ ShowsFrame s t (parse last bs).1 := by
  induction last, bs using parse.induct generalizing u with
  | case1 last => exact ⟨u, rfl, h.start, h.shows⟩
  | case2 last =>
    rw [show parse last [startMarker] = (last, .awaitingX) by simp [parse]]
    exact ⟨_, rxBytes_start h.on h.start, rfl, h.shows⟩
  | case3 last x =>
    rw [show parse last [startMarker, x] = (last, .awaitingY) by simp [parse]]
    exact ⟨_, rxBytes_start_x h.on h.start x, rfl, h.shows⟩
  | case4 last x y =>
    rw [show parse last [startMarker, x, y] = (last, .awaitingEnd) by simp [parse]]
    exact ⟨_, rxBytes_start_x_y h.on h.start x y, rfl, h.shows⟩
  | case5 last x y e more ih =>
    obtain ⟨v, hv, hb⟩ := h.frame x y e
    rw [show startMarker :: x :: y :: e :: more = [startMarker, x, y, e] ++ more from rfl, rxBytes_append, hv, andThen_next]
    exact parse_frame last x y e more ▸ ih hb
  | case6 last b rest hne ih =>
    obtain ⟨v, hv, hb⟩ := h.skip hne
    rw [rxBytes_cons, hv, andThen_next, parse_skip rest hne]
    exact ih hb

/-- Settles O38: the parse says where the receiver is and what the channels show, and no byte writes the rest. -/
theorem streamIsParsedFrameByFrame : Obligations.StreamIsParsedFrameByFrame := by
  intro s bs h hr hs
  have h0 : BetweenFrames s none s := ⟨h, hr, hs, rfl, rfl, rfl, rfl⟩
  obtain ⟨t, ht, hstate, hshow⟩ := h0.rxBytes_parse bs
  have hk := rxBytes_keeps ht
  refine ⟨t, (receive_eq_rxBytes bs s).trans ht, hstate, fun x y hp => ?_, fun hp => ?_, hk.table, hk.period, hk.actX, hk.actY,
    hk.rxEn.trans hr, hk.cfg, hk.inputs⟩
  · rw [hp] at hshow
    exact hshow
  · rw [hp] at hshow
    exact hshow

/-! ### Boundaries among the bytes of a frame (R99) -/

/-- `s` with the active pair `ax`, `ay`. -/
def State.withActive (s : State) (ax ay : Reg 16) : State := { s with actX := ax, actY := ay }

/-- No byte looks at the active pair. -/
theorem rxByte_withActive {s t : State} {b : Byte} (hr : s.rxEn = true) (h : rxByte b s = .next t) (ax ay : Reg 16) :
    rxByte b (s.withActive ax ay) = .next (t.withActive ax ay) := by
  cases hs : s.state with
  | awaitingStart =>
    by_cases hb : b = startMarker
    · subst hb
      cases h.symm.trans (rxByte_start_hit hr hs)
      exact rxByte_start_hit (s := s.withActive ax ay) hr hs
    · cases h.symm.trans (rxByte_start_miss hr hs hb)
      exact rxByte_start_miss (s := s.withActive ax ay) hr hs hb
  | awaitingX =>
    cases h.symm.trans (rxByte_x hr hs b)
    exact rxByte_x (s := s.withActive ax ay) hr hs b
  | awaitingY =>
    cases h.symm.trans (rxByte_y hr hs b)
    exact rxByte_y (s := s.withActive ax ay) hr hs b
  | awaitingEnd =>
    by_cases hb : b = endMarker
    · subst hb
      rw [rxByte_end_commit hr hs] at h
      rw [rxByte_end_commit (s := s.withActive ax ay) hr hs]
      obtain ⟨hd, x, y, vx, vy, hx, hy, hxs, hys, hvx, hvy, rfl⟩ := execRxEndCommit_next h
      exact execRxEndCommit_of (s := s.withActive ax ay) hd hx hy hxs hys hvx hvy
    · cases h.symm.trans (rxByte_end_discard hr hs hb)
      exact rxByte_end_discard (s := s.withActive ax ay) hr hs hb

/-- Under the invariant a boundary after `RXENABLE` completes, and writes the active pair alone (R83, R105). -/
theorem Inv.execPBound_completes {s : State} (h : Inv s) (hr : s.rxEn = true) :
    ∃ vx vy, execPBound s = .next (s.withActive (.written vx) (.written vy)) := by
  obtain ⟨-, hp, hx, hy, -, -⟩ := (initialised_iff s).1 (h.initialisedAfterEnable hr)
  obtain ⟨p, hp⟩ := isWritten_iff.1 hp
  obtain ⟨vx, hx⟩ := isWritten_iff.1 hx
  obtain ⟨vy, hy⟩ := isWritten_iff.1 hy
  exact ⟨vx, vy, execPBound_of hp hx hy⟩

/-- Bytes with boundaries and idling among them do what the bytes alone do, but for the active pair. -/
theorem Inv.deliver_interleaved {s u : State} {es : List Event} {bs : List Byte} (h : Inv s) (hr : s.rxEn = true)
    (hes : ∀ e ∈ es, e = .pBound ∨ e = .idle ∨ ∃ b, e = .rxByte b)
    (hbs : es.filter (fun e => e != .pBound && e != .idle) = bs.map Event.rxByte) (hu : rxBytes bs s = .next u)
    (ax ay : Reg 16) (hact : Inv (s.withActive ax ay)) :
    ∃ ax' ay', deliver es (s.withActive ax ay) = .next (u.withActive ax' ay') := by
  induction es generalizing s bs ax ay with
  | nil =>
    cases bs with
    | nil => cases hu; exact ⟨ax, ay, rfl⟩
    | cons b bs => cases hbs
  | cons e es ih =>
    obtain ⟨rfl | rfl | ⟨b, rfl⟩, htail⟩ := List.forall_mem_cons.1 hes
    · obtain ⟨vx, vy, hp⟩ := hact.execPBound_completes hr
      have hd := deliver_encode_cons (i := .pBound) es rfl rfl hp
      obtain ⟨ax', ay', hrest⟩ := ih h hr htail hbs hu _ _ (hact.of_exec (i := .pBound) hp)
      exact ⟨ax', ay', hd.trans hrest⟩
    · rw [deliver_idle_cons]
      exact ih h hr htail hbs hu _ _ hact
    · obtain _ | ⟨b', bs⟩ := bs
      · cases hbs
      · obtain ⟨hb, hrest⟩ := List.cons_eq_cons.1 hbs
        cases hb
        obtain ⟨v, hv, hu⟩ := andThen_eq_next hu
        have hva := rxByte_withActive hr hv ax ay
        rw [deliver_cons es (decode_rxByte _ _ b), ← rxByte_eq_exec, hva, andThen_next]
        exact ih (h.of_rxByte hv) ((rxByte_keeps hv).rxEn.trans hr) htail hrest hu _ _ (hact.of_rxByte hva)

/-- Settles O49: the bytes of a frame complete, so with boundaries among them they do the same, but for the active pair. -/
theorem frameSurvivesInterleavedBoundaries : Obligations.FrameSurvivesInterleavedBoundaries := by
  intro s x y es h hr hs hes
  refine ⟨fun hbs => ?whole, fun hbs => ?cut⟩
  case whole =>
    obtain ⟨u, hu, -⟩ := h.rxBytes_complete (streamMove x y)
    obtain ⟨ax', ay', ht⟩ := h.deliver_interleaved hr hes hbs hu s.actX s.actY h
    exact ⟨_, u, ht, hu, rfl⟩
  case cut =>
    obtain ⟨ax', ay', ht⟩ := h.deliver_interleaved hr hes hbs (rxBytes_start_x_y hr hs x y) s.actX s.actY h
    exact ⟨_, ht, rfl, rfl, rfl⟩

end Sys2Proof.Machine

namespace Sys2Proof.Machine

/-! ### Stops (R120, R105) -/

/-- The refusals of the initialisation sequencer, the timer and the write port. -/
def hostRefusals : List Refusal :=
  [.badConfig, .buildTwice, .buildAfterEnable, .notInitialised, .periodAtRuntime, .foreignWriteAtRuntime, .reservedSelect,
    .timerNotConfigured]

/-- An answer that is a next state or one of these refusals. -/
def CompletesOrRefuses (r : Result) : Prop := (∃ t, r = .next t) ∨ ∃ f ∈ hostRefusals, r = .refused f

theorem CompletesOrRefuses.next (t : State) : CompletesOrRefuses (.next t) := .inl ⟨t, rfl⟩

theorem CompletesOrRefuses.refused {f : Refusal} (hf : f ∈ hostRefusals) : CompletesOrRefuses (.refused f) :=
  .inr ⟨f, hf, rfl⟩

/-- A test that refuses, and what comes after it. -/
theorem CompletesOrRefuses.ite {c : Prop} [Decidable c] {f : Refusal} {r : Result} (hf : f ∈ hostRefusals)
    (hr : ¬c → CompletesOrRefuses r) : CompletesOrRefuses (if c then .refused f else r) := by
  split
  · exact .refused hf
  · next hc => exact hr hc

/-- A configured timer has what `PBOUND` reads (R83). -/
theorem timerConfigured_iff {s : State} : s.timerConfigured = true ↔
    s.period.isWritten = true ∧ s.chX.isWritten = true ∧ s.chY.isWritten = true := by
  simp [State.timerConfigured, and_assoc]

theorem execPBound_completesOrRefuses (s : State) : CompletesOrRefuses (execPBound s) := by
  cases hc : s.timerConfigured with
  | false => rw [execPBound_refused hc]; exact .refused (by decide)
  | true =>
    obtain ⟨hp, hx, hy⟩ := timerConfigured_iff.1 hc
    obtain ⟨p, hp⟩ := isWritten_iff.1 hp
    obtain ⟨x, hx⟩ := isWritten_iff.1 hx
    obtain ⟨y, hy⟩ := isWritten_iff.1 hy
    rw [execPBound_of hp hx hy]
    exact .next _

/-- Under the invariant no operation that the decoder can select stops in any other way. -/
theorem Inv.exec_completesOrRefuses {s : State} {i : Instr} (h : Inv s) (hw : i.wf = true)
    (hsel : i.selectedIn s.rxEn s.state = true) : CompletesOrRefuses (exec i s) := by
  cases hrx : i.isRx with
  | true =>
    obtain ⟨b, hb⟩ := encode_of_isRx hrx
    rw [exec_of_selected (decodeByte_of_selected hrx hw hsel hb)]
    exact .inl (h.rxByte_completes b)
  | false =>
    cases i with
    | build mn mx steps =>
      exact .ite (by decide) fun _ => .ite (by decide) fun _ => .ite (by decide) fun _ => .next _
    | setPeriod v => exact .ite (by decide) fun _ => .next _
    | setChX v => exact .ite (by decide) fun _ => .next _
    | setChY v => exact .ite (by decide) fun _ => .next _
    | initPwm p dx dy => exact .ite (by decide) fun _ => .next _
    | rxEnable => exact .ite (by decide) fun _ => .next _
    | pBound => exact execPBound_completesOrRefuses s
    | move x y =>
      obtain ⟨t, ht, -⟩ := h.rxBytes_complete (streamMove x y)
      exact .inl ⟨t, ht⟩
    | idle => exact .next _
    | reset => exact .next _
    | _ => cases hrx

/-- Under the invariant a byte or a frame that comes next completes; anything else completes or is refused by a listed reason. -/
theorem Inv.step_completesOrRefuses {s : State} (h : Inv s) : (∃ t, step s = .next t) ∨
    (∃ f ∈ hostRefusals, step s = .refused f) ∧
      ∃ e rest, s.inputs = e :: rest ∧ (∀ b, e ≠ .rxByte b) ∧ ∀ w, e ≠ .frame4 w := by
  rcases step_cases s with ⟨-, hs⟩ | ⟨e, rest, i, hi, hd, hs⟩ | ⟨w, rest, -, hs⟩ | ⟨w, rest, hi, hs⟩ <;> rw [hs]
  · exact .inl ⟨s, rfl⟩
  · obtain ⟨hw, hsel⟩ := selected_of_decode hd
    rcases (h.putInputs rest).exec_completesOrRefuses hw hsel with hx | hx
    · exact .inl hx
    · obtain ⟨f, -, hf⟩ := id hx
      refine .inr ⟨hx, e, rest, hi, ?_, ?_⟩
      · rintro b rfl
        cases hd
        obtain ⟨t, ht⟩ := (h.putInputs rest).rxByte_completes b
        cases hf.symm.trans ((rxByte_eq_exec b (s.putInputs rest)).symm.trans ht)
      · rintro w rfl
        obtain ⟨-, -, -, -, rfl⟩ := decodeFrame_ok hd
        obtain ⟨t, ht, -⟩ := (h.putInputs rest).rxBytes_complete (streamMove (frameX w) (frameY w))
        cases hf.symm.trans ht
  · exact .inl ((h.putInputs _).rxByte_completes _)
  · exact .inr ⟨⟨.reservedSelect, by decide, rfl⟩, _, rest, hi, nofun, nofun⟩

/-- Settles O53: a step completes or is refused by a reason of the list, and never on a byte or a frame. -/
theorem stopsAreTheListedRefusals : Obligations.StopsAreTheListedRefusals := by
  intro s h
  rcases h.step_completesOrRefuses with ⟨t, ht⟩ | ⟨⟨f, hf, hs⟩, he⟩
  · rw [ht]
    exact ⟨nofun, nofun⟩
  · rw [hs]
    refine ⟨nofun, fun r hr => ?_⟩
    cases hr
    exact ⟨hf, he⟩

/-! ### Runs with the receiver on -/

/-- The receiver is on and no `RESET` is pending. -/
def StaysOn (s : State) : Prop := s.rxEn = true ∧ .reset ∉ s.inputs

/-- All that a fetch can be: idling on no event, the next event's operation, or the first byte of a frame that is no unit. -/
theorem fetch_cases {s u : State} {i : Instr} (hf : fetch s = .ok (i, u)) :
    (s.inputs = [] ∧ i = .idle ∧ u = s) ∨
    (∃ e rest, s.inputs = e :: rest ∧ decode s.rxEn s.state e = .ok i ∧ u = s.putInputs rest) ∨
    (∃ w rest, s.inputs = .frame4 w :: rest ∧ i = decodeByte s.rxEn s.state (frameStart w) ∧
      u = s.putInputs (.rxByte (frameX w) :: .rxByte (frameY w) :: .rxByte (frameEnd w) :: rest)) := by
  cases hi : s.inputs with
  | nil =>
    simp only [fetch, hi, unfoldFrame, Except.ok.injEq, Prod.mk.injEq] at hf
    exact .inl ⟨rfl, hf.1.symm, hf.2.symm⟩
  | cons e rest =>
    refine .inr ?_
    cases hd : decode s.rxEn s.state e with
    | ok j =>
      cases (fetch_of_decode hi hd).symm.trans hf
      exact .inl ⟨e, rest, rfl, hd, rfl⟩
    | error r =>
      cases e with
      | frame4 w =>
        have hw : decodeFrame s.rxEn s.state w = .error r := hd
        simp only [fetch, hi, unfoldFrame, hw, frameBytes, List.map_cons, List.cons_append, decode_rxByte, Except.ok.injEq,
          Prod.mk.injEq] at hf
        exact .inr ⟨w, rest, rfl, hf.1.symm, hf.2.symm⟩
      | regWr w => simp [fetch, hi, unfoldFrame, hd] at hf
      | _ => cases hd

/-- What is fetched can be selected where it is fetched. -/
theorem selected_of_fetch {s u : State} {i : Instr} (hf : fetch s = .ok (i, u)) : i.selectedIn s.rxEn s.state = true := by
  rcases fetch_cases hf with ⟨-, rfl, -⟩ | ⟨e, rest, -, hd, -⟩ | ⟨w, rest, -, hi, -⟩
  · rfl
  · exact (selected_of_decode hd).2
  · exact selectedIn_of_decodeByte hi.symm

/-- With no `RESET` pending none is fetched, and none is pending after the fetch. -/
theorem no_reset_of_fetch {s u : State} {i : Instr} (hf : fetch s = .ok (i, u)) (hn : .reset ∉ s.inputs) :
    i ≠ .reset ∧ .reset ∉ u.inputs := by
  rcases fetch_cases hf with ⟨-, rfl, rfl⟩ | ⟨e, rest, hi, hd, rfl⟩ | ⟨w, rest, hi, hb, rfl⟩
  · exact ⟨by decide, hn⟩
  · rw [hi, List.mem_cons, not_or] at hn
    refine ⟨?_, hn.2⟩
    rintro rfl
    exact hn.1 (encode_of_decode hd)
  · rw [hi, List.mem_cons, not_or] at hn
    refine ⟨?_, by simpa using hn.2⟩
    rintro rfl
    have hr := (decodeByte_sound s.rxEn s.state (frameStart w)).1
    rw [← hb] at hr
    cases hr

/-- A step with the receiver on is no `RESET`, so the receiver stays on, and no host write, so the table stands still. -/
theorem StaysOn.step {s t : State} (h : StaysOn s) (hs : step s = .next t) :
    StaysOn t ∧ t.table = s.table ∧ t.cfg = s.cfg := by
  obtain ⟨hr, hn⟩ := h
  obtain ⟨i, l, hf, hx⟩ := step_next hs
  obtain ⟨hne, hl⟩ := no_reset_of_fetch hf hn
  have hw := (completes_of_exec hx).writesOnlyItsOwn hne
  refine ⟨⟨?on, exec_next_inputs hx ▸ hl⟩, ?table, hw.cfg⟩
  case on =>
    by_contra hoff
    exact hne ((exec_rxEn hx).1 hr (by simpa using hoff))
  case table =>
    rcases hw.table with ht | ⟨_, _, _, -, hoff, -⟩
    · exact ht
    · cases hr.symm.trans hoff

/-- The last step of a run. -/
theorem runFor_succ_next {n : Nat} {s t : State} (h : runFor (n + 1) s = .next t) :
    ∃ u, runFor n s = .next u ∧ step u = .next t := by
  rw [runFor_add] at h
  obtain ⟨u, hu, h⟩ := andThen_eq_next h
  rw [runFor_succ] at h
  obtain ⟨t', ht, h⟩ := andThen_eq_next h
  cases h
  exact ⟨u, hu, ht⟩

theorem Inv.of_run {s t : State} {n : Nat} (h : Inv s) (hrun : runFor n s = .next t) : Inv t := by
  induction n generalizing t with
  | zero => cases hrun; exact h
  | succ n ih =>
    obtain ⟨u, hu, ht⟩ := runFor_succ_next hrun
    exact (ih hu).of_step ht

theorem StaysOn.run {s t : State} {n : Nat} (h : StaysOn s) (hrun : runFor n s = .next t) :
    StaysOn t ∧ t.table = s.table ∧ t.cfg = s.cfg := by
  induction n generalizing t with
  | zero => cases hrun; exact ⟨h, rfl, rfl⟩
  | succ n ih =>
    obtain ⟨u, hu, ht⟩ := runFor_succ_next hrun
    obtain ⟨hon, htable, hcfg⟩ := ih hu
    obtain ⟨hon', htable', hcfg'⟩ := hon.step ht
    exact ⟨hon', htable'.trans htable, hcfg'.trans hcfg⟩

/-! ### The compare pair (R23 f, R14) -/

/-- The pair `(px, py)` is what the frame that `s` is about to commit selects from its table, crossed. -/
def PairOfNextFrame (s : State) (px py : Reg 16) : Prop :=
  ∃ x y, CommitsFrame s x y ∧ x.toNat ≤ maxIndex s.cfg ∧ y.toNat ≤ maxIndex s.cfg ∧
    px = s.table.read y.toNat ∧ py = s.table.read x.toNat ∧ px ≠ .unwritten ∧ py ≠ .unwritten

theorem Inv.commit_pair {s t u : State} (h : Inv s) (hs : s.state = .awaitingEnd) (hf : fetch s = .ok (.rxEndCommit, u))
    {x y : Byte} {vx vy : Word} (hx : s.cmd.c1 = .written x) (hy : s.cmd.c2 = .written y)
    (hvx : s.table.read y.toNat = .written vx) (hvy : s.table.read x.toNat = .written vy) (htx : t.chX = .written vx)
    (hty : t.chY = .written vy) : PairOfNextFrame s t.chX t.chY := by
  obtain ⟨x', hx', hxm⟩ := h.indexXHeld (.inr hs)
  obtain ⟨y', hy', hym⟩ := h.indexYHeld hs
  cases hx.symm.trans hx'
  cases hy.symm.trans hy'
  rw [htx, hty]
  exact ⟨x, y, .inl ⟨u, hf, hx, hy⟩, hxm, hym, hvx.symm, hvy.symm, nofun, nofun⟩

theorem Inv.move_pair {s t u : State} (h : Inv s) (hr : s.rxEn = true) {a b : Byte} (hf : fetch s = .ok (.move a b, u))
    {l : List Event} (hx : execMove a b (s.putInputs l) = .next t) : PairOfNextFrame s t.chX t.chY := by
  obtain ⟨-, hs⟩ := context_of_selected (selected_of_fetch hf)
  obtain ⟨vx, hvx⟩ := h.read_written hr (clamp_lt s.cfg b)
  obtain ⟨vy, hvy⟩ := h.read_written hr (clamp_lt s.cfg a)
  cases (execMove_of (s := s.putInputs l) hr hs hvx hvy).symm.trans hx
  exact ⟨_, _, .inr ⟨a, b, u, hf, rfl, rfl⟩, clamp_le_maxIndex _ _, clamp_le_maxIndex _ _, hvx.symm, hvy.symm, nofun, nofun⟩

/-- With the receiver on only the commit of a frame changes the compare pair, both channels at once. -/
theorem Inv.step_pair {s t : State} (h : Inv s) (hon : StaysOn s) (hs : step s = .next t) :
    (t.chX = s.chX ∧ t.chY = s.chY) ∨ PairOfNextFrame s t.chX t.chY := by
  obtain ⟨hr, hn⟩ := hon
  obtain ⟨i, l, hf, hx⟩ := step_next hs
  cases completes_of_exec hx with
  | setChX hoff => cases hr.symm.trans hoff
  | setChY hoff => cases hr.symm.trans hoff
  | initPwm hoff => cases hr.symm.trans hoff
  | reset => exact absurd rfl (no_reset_of_fetch hf hn).1
  | rxEndCommit _ hstate hcx hcy hvx hvy => exact .inr (h.commit_pair hstate hf hcx hcy hvx hvy rfl rfl)
  | move hm => exact .inr (h.move_pair hr hf hm)
  | _ => exact .inl ⟨rfl, rfl⟩

theorem PairOfOneFrame.mono {s : State} {m n : Nat} {px py : Reg 16} (h : PairOfOneFrame s m px py) (hmn : m ≤ n) :
    PairOfOneFrame s n px py := by
  obtain ⟨k, u, x, y, hk, hrest⟩ := h
  exact ⟨k, u, x, y, hk.trans_le hmn, hrest⟩

/-- The frame committed by the last step of a run is one of the run. -/
theorem pairOfOneFrame_of_last {s u : State} {n : Nat} {px py : Reg 16} (hon : StaysOn s) (hu : runFor n s = .next u)
    (h : PairOfNextFrame u px py) : PairOfOneFrame s (n + 1) px py := by
  obtain ⟨-, htable, hcfg⟩ := hon.run hu
  obtain ⟨x, y, hc, hrest⟩ := h
  rw [htable, hcfg] at hrest
  exact ⟨n, u, x, y, n.lt_succ_self, hu, hc, hrest⟩

/-- In a run with the receiver on the compare pair is the start's or that of one frame. -/
theorem Inv.run_pair {s t : State} {n : Nat} (h : Inv s) (hon : StaysOn s) (hrun : runFor n s = .next t) :
    (t.chX = s.chX ∧ t.chY = s.chY) ∨ PairOfOneFrame s n t.chX t.chY := by
  induction n generalizing t with
  | zero => cases hrun; exact .inl ⟨rfl, rfl⟩
  | succ n ih =>
    obtain ⟨u, hu, ht⟩ := runFor_succ_next hrun
    rcases (h.of_run hu).step_pair (hon.run hu).1 ht with ⟨hx, hy⟩ | hframe
    · rw [hx, hy]
      exact (ih hu).imp_right fun hp => hp.mono n.le_succ
    · exact .inr (pairOfOneFrame_of_last hon hu hframe)

/-- Settles O54: by induction on the run, each step leaving the pair or committing one frame. -/
theorem comparePairComesFromOneFrame : Obligations.ComparePairComesFromOneFrame :=
  fun _ _ _ h hr hn hrun => ⟨(StaysOn.run ⟨hr, hn⟩ hrun).2.1, h.run_pair ⟨hr, hn⟩ hrun⟩

/-! ### The active pair (R42, R87) -/

/-- A step leaves the active pair, copies the compare pair it found, or, with the receiver off or by a `RESET`, leaves both pairs
equal. -/
theorem step_active {s t : State} (hs : step s = .next t) :
    (t.actX = s.actX ∧ t.actY = s.actY) ∨ (t.actX = s.chX ∧ t.actY = s.chY) ∨
      ¬StaysOn s ∧ t.actX = t.chX ∧ t.actY = t.chY := by
  obtain ⟨i, l, hf, hx⟩ := step_next hs
  cases completes_of_exec hx with
  | pBound hcx hcy => exact .inr (.inl ⟨hcx.symm, hcy.symm⟩)
  | initPwm hoff => exact .inr (.inr ⟨fun hon => Bool.noConfusion (hon.1.symm.trans hoff), rfl, rfl⟩)
  | reset => exact .inr (.inr ⟨fun hon => (no_reset_of_fetch hf hon.2).1 rfl, rfl, rfl⟩)
  | move hm =>
    have hk := rxBytes_keeps hm
    exact .inl ⟨hk.actX, hk.actY⟩
  | _ => exact .inl ⟨rfl, rfl⟩

/-- The active pair of a run is the start's, or the compare pair of one state of the run, an earlier one with the receiver on. -/
theorem run_active {s t : State} {n : Nat} (hrun : runFor n s = .next t) :
    (t.actX = s.actX ∧ t.actY = s.actY) ∨
      ∃ k u, k ≤ n ∧ (StaysOn s → k < n) ∧ runFor k s = .next u ∧ t.actX = u.chX ∧ t.actY = u.chY := by
  induction n generalizing t with
  | zero => cases hrun; exact .inl ⟨rfl, rfl⟩
  | succ n ih =>
    obtain ⟨u, hu, ht⟩ := runFor_succ_next hrun
    rcases step_active ht with ⟨hx, hy⟩ | ⟨hx, hy⟩ | ⟨hoff, hx, hy⟩
    · rw [hx, hy]
      refine (ih hu).imp_right ?_
      rintro ⟨k, v, hk, -, hv⟩
      exact ⟨k, v, by omega, fun _ => by omega, hv⟩
    · exact .inr ⟨n, u, n.le_succ, fun _ => n.lt_succ_self, hu, hx, hy⟩
    · exact .inr ⟨n + 1, t, le_rfl, fun hon => absurd (hon.run hu).1 hoff, hrun, hx, hy⟩

/-- Settles O55: the active pair is the compare pair of one state of the run, and that pair comes from one frame by O54's lemma. -/
theorem activePairIsNeverMixed : Obligations.ActivePairIsNeverMixed := by
  intro s t n hrun
  constructor
  · refine (run_active hrun).imp_right ?_
    rintro ⟨k, u, hk, hlt, hu⟩
    exact ⟨k, u, hk, fun hr hn => hlt ⟨hr, hn⟩, hu⟩
  · intro h hr hn
    rcases run_active hrun with hact | ⟨k, u, hk, -, hu, hx, hy⟩
    · exact .inl hact
    · rw [hx, hy]
      exact .inr ((h.run_pair ⟨hr, hn⟩ hu).imp_right fun hp => hp.mono hk)

end Sys2Proof.Machine
